-- ==== Sys2Proof/Word.lean ====
section
/-! DEFINITION. The two word types of the block: the 32-bit word of the command port (00_scope.md R4, `LIMB`, `CW`)
and the 8-bit field of a command word (30_encoding.md R40). Bit 0 is the least significant bit (00_scope.md R5). -/

namespace Sys2Proof

/-- A command word, a data word, a response word or one limb of a register (00_scope.md R4, R8). -/
abbrev Word32 := BitVec 32

/-- An 8-bit field of a command word (30_encoding.md R40). -/
abbrev Byte := BitVec 8

end Sys2Proof
end

