-- ==== Sys2Proof/Config.lean ====
section
/-! DEFINITION. The implementation parameters of the block (00_scope.md R4) and the constant wired into its divider
(10_state.md R21, 41_work.md R66). -/

namespace Sys2Proof.Config

/-- `TW`, the width of the target magnitude register, for this hardware (00_scope.md R4). The register-level model takes
the width as an argument `tw`; the machine the host runs is that model at `TW`. Log entry 1. -/
abbrev TW : Nat := 256

/-- The widths R4 admits for `TW`: multiples of 32 from 32 to 2048. -/
abbrev LegalWidth (tw : Nat) : Prop := 32 ∣ tw ∧ 32 ≤ tw ∧ tw ≤ 2048

/-- `WW`, the width of the work register (R4). -/
abbrev WW : Nat := 256

/-- `HW`, the width of the hash-rate register (R4). -/
abbrev HW : Nat := 256

/-- `QW`, the width of the time register (R4). -/
abbrev QW : Nat := 256

/-- `LIMB`, the width of one host access (R4). -/
abbrev LIMB : Nat := 32

/-- The dividend of the work division, a 257-bit constant that no command can change (41_work.md R66, 10_state.md R21). -/
def workDividend : Nat := 2 ^ 256

/-- How many clock cycles more than one a command takes, from the target width, the command word, the data word and the
seven registers at its acceptance, `SR` as its two fields among them: `LAT(cmd)` is unspecified and finite
(70_reset_and_hazards.md R104). `SR` is an argument so that a command refused by a halted block may take another number of
cycles than the same command executed. DESIGN CHOICE: the number depends on nothing else, so it is the same on any two
occasions that agree on the arguments. A free value: it has no body. Log entry 5. -/
opaque extraCycles (tw : Nat) (cmd wdata cb : Word32) (ts : BitVec 1) (tm wk hr tt : Nat) (fatal : BitVec 1)
    (cause : BitVec 4) : Nat

end Sys2Proof.Config
end

