-- ==== Sys2Proof/Syntax.lean ====
section
/-! DEFINITION. The registers a command can name and the seven commands, one constructor for each row of
spec/opcode_table.json. -/

namespace Sys2Proof

/-- The seven registers, in the order of their ids (20_memory.md R24, 30_encoding.md R43). -/
inductive Reg
  | cb | ts | tm | wk | hr | tt | sr
  deriving DecidableEq, Repr

/-- The commands (30_encoding.md R42). `GET` and `PUT` carry a register and a limb index, which is the 8-bit field of the
word as it stands (R44); the compute commands carry nothing (R45). The data word is no part of a command word. -/
inductive Instr
  /-- `GET`, read one limb of a register (42_register_access.md R77). -/
  | get (r : Reg) (k : Byte)
  /-- `PUT`, write one limb of a host-writable register (42_register_access.md R78). -/
  | put (r : Reg) (k : Byte)
  /-- `DEC`, decode `CB` into the target registers (40_codec.md R56). -/
  | dec
  /-- `ENC`, encode the target registers into `CB` (40_codec.md R57). -/
  | enc
  /-- `WRKT`, work from the target registers (41_work.md R68). -/
  | wrkt
  /-- `WRKC`, work from the compact register (41_work.md R69). -/
  | wrkc
  /-- `DIVT`, time from work and hash rate (41_work.md R71). -/
  | divt
  deriving DecidableEq, Repr

end Sys2Proof
end

