-- ==== Sys2Proof/WellFormed.lean ====
section
/-! DEFINITION. The register map and the commands that have a command word: valid addresses and host access
(20_memory.md R24, 30_encoding.md R44, R47). -/

namespace Sys2Proof

/-- The width in bits of a register when `TM` has `tw` bits (10_state.md R10; of the 32 bits of `SR`, 5 are storage). -/
def Reg.width (tw : Nat) : Reg → Nat
  | .cb => 32
  | .ts => 1
  | .tm => tw
  | .wk => Config.WW
  | .hr => Config.HW
  | .tt => Config.QW
  | .sr => 32

/-- `limbs(r)`, how many 32-bit limbs a register has (20_memory.md R24). -/
def Reg.limbs (tw : Nat) : Reg → Nat
  | .cb => 1
  | .ts => 1
  | .tm => tw / Config.LIMB
  | .wk => Config.WW / Config.LIMB
  | .hr => Config.HW / Config.LIMB
  | .tt => Config.QW / Config.LIMB
  | .sr => 1

/-- The registers whose host access is "read, write"; the others are read only (20_memory.md R24). -/
def Reg.hostWritable : Reg → Bool
  | .cb | .ts | .tm | .hr => true
  | .wk | .tt | .sr => false

/-- `(r, k)` is a valid address of the register space (20_memory.md R24). -/
abbrev ValidAddress (tw : Nat) (r : Reg) (k : Byte) : Prop := k.toNat < r.limbs tw

/-- The commands that have a command word: a valid address, and for `PUT` a host-writable register (30_encoding.md R42). -/
abbrev Instr.WF (tw : Nat) : Instr → Prop
  | .get r k => ValidAddress tw r k
  | .put r k => ValidAddress tw r k ∧ r.hostWritable = true
  | .dec => True
  | .enc => True
  | .wrkt => True
  | .wrkc => True
  | .divt => True

end Sys2Proof
end

