-- ==== Sys2Proof/Machine/State.lean ====
section
/-! DEFINITION. The state of the block: the seven registers (10_state.md R10), the host's side of the command port, the
reset state (R22), and the two types of stops, which this hardware never uses. -/

namespace Sys2Proof.Machine

/-- The storage of the status register `SR`: its five implemented bits (10_state.md R10, R18). Its other bits are
hard-wired zeros, which `SR.word` of Machine/Flags.lean supplies. -/
structure SR where
  /-- `SR.FATAL`, bit 0: a fatal fault has been raised since the last reset. -/
  fatal : BitVec 1
  /-- `SR.CAUSE`, bits 7:4: the cause of the fault that set `FATAL`. -/
  cause : BitVec 4
  deriving DecidableEq, Repr

/-- The seven registers, the whole architectural state (10_state.md R10), with a target magnitude register of `tw` bits. -/
structure Regs (tw : Nat) where
  /-- `CB`, the compact bits (R11). -/
  cb : Word32
  /-- `TS`, the sign of the target (R12). -/
  ts : BitVec 1
  /-- `TM`, the magnitude of the target (R13). -/
  tm : BitVec tw
  /-- `WK`, the work (R15). -/
  wk : BitVec Config.WW
  /-- `HR`, the hash rate (R16). -/
  hr : BitVec Config.HW
  /-- `TT`, the time in seconds (R17). -/
  tt : BitVec Config.QW
  /-- `SR`, the status register (R18). -/
  sr : SR
  deriving DecidableEq, Repr

/-- What a command leaves: the registers and the response word (00_scope.md R8). -/
structure Reply (tw : Nat) where
  /-- The registers after the command. -/
  regs : Regs tw
  /-- The response word `rdata` (20_memory.md R30). -/
  rdata : Word32
  deriving DecidableEq, Repr

/-- One input of the host: a transaction's command word and data word (20_memory.md R30), or a reset (R33). -/
inductive PortEvent
  /-- The host presents a command word and a data word together. -/
  | command (cmd wdata : Word32)
  /-- The host asserts reset, between two commands or in place of one. -/
  | reset
  deriving DecidableEq, Repr

/-- The machine: the architectural registers, and the host's side of the command port as plain data. The three port
fields are the model's own (log entry 2). -/
structure State where
  /-- The seven registers (10_state.md R10). -/
  regs : Regs Config.TW
  /-- The host's inputs that are not yet taken, oldest first (20_memory.md R34: one stream, in issue order). -/
  inbox : List PortEvent
  /-- The data word presented with the command being executed (20_memory.md R30). -/
  wdata : Word32
  /-- The last step's response: `some v` for a pulse of `rsp_valid` with `rdata = v`, `none` when it is low (R31). -/
  rsp : Option Word32
  deriving DecidableEq, Repr

/-- The reset state of the registers: every bit zero (10_state.md R22). -/
def Regs.reset (tw : Nat) : Regs tw :=
  { cb := 0, ts := 0, tm := 0, wk := 0, hr := 0, tt := 0, sr := { fatal := 0, cause := 0 } }

/-- The machine right after reset: the registers zero (10_state.md R22), no response (20_memory.md R33), nothing offered
yet (70_reset_and_hazards.md R96; log entry 2 for the port fields). -/
def State.reset : State :=
  { regs := Regs.reset Config.TW, inbox := [], wdata := 0, rsp := none }

/-- The ways the machine stops. There is none: the step is total and the block responds to every word, a halted block
included (00_scope.md R8, 60_exceptions.md R87), so the block's own fatal faults are next states. Log entry 3. -/
inductive Fault
  deriving DecidableEq, Repr

/-- The instructions the model gives no meaning. -/
inductive Refusal
  /-- Raised by an arm of `exec` that has no meaning yet (no arm is in this model). Safe: nothing can be proved of the
  command but that it is not modelled. -/
  | notModelled (mnemonic : String)
  deriving DecidableEq, Repr

end Sys2Proof.Machine
end

