-- ==== Sys2Proof/Machine/Flags.lean ====
section
/-! DEFINITION. The status register: its word, the causes and their codes, the halted test, the `fatal` line
(10_state.md R18, 60_exceptions.md R82, R89). -/

namespace Sys2Proof.Machine

variable {tw : Nat}

/-- The four causes of a fatal fault (60_exceptions.md R82). -/
inductive Cause
  | illegalCmd | decOverflow | encOverflow | divZero
  deriving DecidableEq, Repr

/-- The code `SR.CAUSE` records for a cause (60_exceptions.md R82). -/
def Cause.code : Cause → BitVec 4
  | .illegalCmd => 1
  | .decOverflow => 2
  | .encOverflow => 3
  | .divZero => 4

/-- `SR` as a 32-bit word: `FATAL` in bit 0, `CAUSE` in bits 7:4, every other bit 0 (10_state.md R18). -/
def SR.word (x : SR) : Word32 := 0x000000#24 ++ x.cause ++ 0b000#3 ++ x.fatal

/-- The status after a fault with cause `c` (60_exceptions.md R84). -/
def fatalStatus (c : Cause) : SR := { fatal := 1, cause := c.code }

/-- The block is halted (00_scope.md section 8, 60_exceptions.md R87). -/
abbrev Halted (r : Regs tw) : Prop := r.sr.fatal = 1

/-- The `fatal` output line, a level copy of `SR.FATAL` (60_exceptions.md R89). -/
def fatalLine (r : Regs tw) : BitVec 1 := r.sr.fatal

end Sys2Proof.Machine
end

