-- ==== Sys2Proof/Machine/Operands.lean ====
section
/-! DEFINITION. The operand forms: one limb of a register, addressed by register id and limb index, and the base-256
digits of a magnitude (00_scope.md R6, R7; 20_memory.md R23 to R26; 42_register_access.md R80). -/

namespace Sys2Proof.Machine

variable {tw w : Nat}

/-- `limb(x, k)`, bits `32*k+31 : 32*k` of `x` (00_scope.md R6, 20_memory.md R25). -/
def limb (x : BitVec w) (k : Nat) : Word32 := x.extractLsb' (Config.LIMB * k) Config.LIMB

/-- The bits of limb `k` in a register of `w` bits. -/
def limbMask (w k : Nat) : BitVec w := (BitVec.allOnes Config.LIMB).setWidth w <<< (Config.LIMB * k)

/-- `x` with limb `k` replaced by `v` and the other bits left alone (00_scope.md R7). -/
def setLimb (x : BitVec w) (k : Nat) (v : Word32) : BitVec w :=
  (x &&& ~~~limbMask w k) ||| (v.setWidth w <<< (Config.LIMB * k))

/-- `RegRead(r, k)`: limb `k` of register `r`, zero-extended to 32 bits (00_scope.md R7, 42_register_access.md R77). -/
def regRead (r : Reg) (k : Byte) (x : Regs tw) : Word32 :=
  match r with
  | .cb => limb x.cb k.toNat
  | .ts => limb x.ts k.toNat
  | .tm => limb x.tm k.toNat
  | .wk => limb x.wk k.toNat
  | .hr => limb x.hr k.toNat
  | .tt => limb x.tt k.toNat
  | .sr => limb x.sr.word k.toNat

/-- `RegWrite(r, k, v)` on the host-writable registers; of `TS` only bit 0 is written, the read-only registers are left
alone (42_register_access.md R78, R79). -/
def regWrite (r : Reg) (k : Byte) (v : Word32) (x : Regs tw) : Regs tw :=
  match r with
  | .cb => { x with cb := setLimb x.cb k.toNat v }
  | .ts => { x with ts := v.extractLsb' 0 1 }
  | .tm => { x with tm := setLimb x.tm k.toNat v }
  | .hr => { x with hr := setLimb x.hr k.toNat v }
  | .wk => x
  | .tt => x
  | .sr => x

/-- The value of a whole register as an unsigned number (20_memory.md R25). -/
def regValue (r : Reg) (x : Regs tw) : Nat :=
  match r with
  | .cb => x.cb.toNat
  | .ts => x.ts.toNat
  | .tm => x.tm.toNat
  | .wk => x.wk.toNat
  | .hr => x.hr.toNat
  | .tt => x.tt.toNat
  | .sr => x.sr.word.toNat

/-- `bytelen(x)`: the number of base-256 digits of `x`, 0 for 0 (00_scope.md R6). -/
def byteLength (x : Nat) : Nat := if x = 0 then 0 else Nat.log2 x / 8 + 1

/-- `byte(x, i)`: base-256 digit `i` of `x` (00_scope.md R6). -/
def byteDigit (x i : Nat) : Nat := x / 256 ^ i % 256

end Sys2Proof.Machine
end

