-- ==== Sys2Proof/Machine/Ops.lean ====
section
/-! DEFINITION. The shared ends of a command: the response, the refusal of a halted block, taking a fatal fault (the
block's one exception; there is no return from it, 60_exceptions.md R88), the illegal command, and how a reply becomes
the next state of the machine. -/

namespace Sys2Proof.Machine

variable {tw : Nat}

/-- `rdata <- v`: the command completes with the registers `r` (00_scope.md R7). -/
def respond (v : Word32) (r : Regs tw) : Reply tw := { regs := r, rdata := v }

/-- A halted block refuses the command: no register changes and the response is 0 (60_exceptions.md R87). -/
def refuse (r : Regs tw) : Reply tw := respond 0 r

/-- `raise Fatal(cause)`: `SR` takes the cause, no other register changes, the response is 0 (60_exceptions.md R84). It is
reached only when the block is not halted. -/
def raiseFatal (c : Cause) (r : Regs tw) : Reply tw := respond 0 { r with sr := fatalStatus c }

/-- An illegal word: refused while halted, the fault `ILLEGAL_CMD` otherwise (30_encoding.md R47). -/
def illegalCommand (r : Regs tw) : Reply tw :=
  if Halted r then refuse r else raiseFatal .illegalCmd r

/-- The machine after a command: its registers and its response are the reply's (20_memory.md R30). -/
def settle (s : State) (a : Reply Config.TW) : State := { s with regs := a.regs, rsp := some a.rdata }

/-- Every command ends in a next state (00_scope.md R8). -/
def finish (s : State) (a : Reply Config.TW) : Host.Outcome State Fault Refusal := .next (settle s a)

end Sys2Proof.Machine
end

