-- ==== Sys2Proof/Machine/Access.lean ====
section
/-! DEFINITION. The register-access family: `GET` and `PUT` (42_register_access.md R77 to R80). A `GET` or `PUT` term whose
address is not valid, or a `PUT` term of a read-only register, has no word of its own; it is the illegal command that
20_memory.md R24 says it is (log entry 4). -/

namespace Sys2Proof.Machine

variable {tw : Nat}

/-- `GET` on the registers, served while halted too (42_register_access.md R77). -/
def getReply (r : Reg) (k : Byte) (x : Regs tw) : Reply tw :=
  if ValidAddress tw r k then respond (regRead r k x) x else illegalCommand x

/-- `PUT` on the registers (42_register_access.md R78). -/
def putReply (r : Reg) (k : Byte) (wdata : Word32) (x : Regs tw) : Reply tw :=
  if Halted x then refuse x
  else if ValidAddress tw r k ∧ r.hostWritable = true then respond 0 (regWrite r k wdata x)
  else illegalCommand x

/-- `GET` (42_register_access.md R77). -/
def execGet (r : Reg) (k : Byte) (s : State) : Host.Outcome State Fault Refusal := finish s (getReply r k s.regs)

/-- `PUT` of the data word that came with the command (42_register_access.md R78). -/
def execPut (r : Reg) (k : Byte) (s : State) : Host.Outcome State Fault Refusal :=
  finish s (putReply r k s.wdata s.regs)

end Sys2Proof.Machine
end

