-- ==== Sys2Proof/Machine/Codec.lean ====
section
/-! DEFINITION. The codec family: the functions `decode` and `encode` of the compact data format on unbounded integers and
the commands `DEC` and `ENC` (30_encoding.md R37; 40_codec.md R51 to R57). -/

namespace Sys2Proof.Machine

variable {tw : Nat}

/-- A target: a sign bit and an unbounded magnitude (10_state.md R14, 40_codec.md R51). -/
structure Target where
  /-- The sign bit, 1 for a negative target. -/
  sign : BitVec 1
  /-- The magnitude. -/
  mag : Nat
  deriving DecidableEq, Repr

/-- `val(s, m)`, the signed integer of a target; negative zero is 0 (00_scope.md R6). -/
def targetValue (t : Target) : Int := if t.sign = 1 then -(t.mag : Int) else t.mag

/-- The exponent field `e` of a compact value, bits 31:24 (30_encoding.md R37). -/
def exponentField (c : Word32) : Nat := (c.extractLsb' 24 8).toNat

/-- The sign field `s` of a compact value, bit 23 (30_encoding.md R37). -/
def signField (c : Word32) : BitVec 1 := c.extractLsb' 23 1

/-- The mantissa field `m` of a compact value, bits 22:0 (30_encoding.md R37). -/
def mantissaField (c : Word32) : Nat := (c.extractLsb' 0 23).toNat

/-- The magnitude of a compact value, without loss to the left and rounded down to the right (40_codec.md R51, R63). -/
def decodedMag (c : Word32) : Nat :=
  if exponentField c ≤ 3 then mantissaField c >>> (8 * (3 - exponentField c))
  else mantissaField c <<< (8 * (exponentField c - 3))

/-- `decode`, the function on integers: total, unbounded (40_codec.md R51). -/
def decodeCompact (c : Word32) : Target := { sign := signField c, mag := decodedMag c }

/-- "mantissa = top 3 bytes": the 24-bit window that starts at the top byte of a magnitude (40_codec.md R54). -/
def topThreeBytes (mag : Nat) : Nat :=
  if byteLength mag ≤ 3 then mag <<< (8 * (3 - byteLength mag)) else mag >>> (8 * (byteLength mag - 3))

/-- The window's top bit "would be misread as the sign bit" (40_codec.md R54). -/
def needsFixUp (mag : Nat) : Bool := (topThreeBytes mag).testBit 23

/-- The exponent `ENC` forms, after the fix-up (40_codec.md R54). -/
def packedExponent (mag : Nat) : Nat := if needsFixUp mag then byteLength mag + 1 else byteLength mag

/-- The mantissa `ENC` forms, after the fix-up, which drops the low byte (40_codec.md R54). -/
def packedMantissa (mag : Nat) : Nat := if needsFixUp mag then topThreeBytes mag >>> 8 else topThreeBytes mag

/-- `encode`, the function on integers; `none` is the overflow of 40_codec.md R55. The zero test comes first and looks at
the magnitude only (40_codec.md R54). -/
def encodeCompact (s : BitVec 1) (mag : Nat) : Option Word32 :=
  if mag = 0 then some 0
  else if packedExponent mag > 255 then none
  else some (BitVec.ofNat 8 (packedExponent mag) ++ s ++ BitVec.ofNat 23 (packedMantissa mag))

/-- The decoded magnitude does not fit a target register of `tw` bits (40_codec.md R52). -/
abbrev DecodeOverflows (tw : Nat) (c : Word32) : Prop := 2 ^ tw ≤ decodedMag c

/-- The target registers take a decoded target; the sign of zero is 0 (40_codec.md R53, R56). -/
def writeTarget (t : Target) (r : Regs tw) : Regs tw :=
  { r with tm := BitVec.ofNat tw t.mag, ts := if t.mag = 0 then 0 else t.sign }

/-- `DEC` on the registers (40_codec.md R56). -/
def decReply (r : Regs tw) : Reply tw :=
  if Halted r then refuse r
  else if DecodeOverflows tw r.cb then raiseFatal .decOverflow r
  else respond 0 (writeTarget (decodeCompact r.cb) r)

/-- `ENC` on the registers (40_codec.md R57). -/
def encReply (r : Regs tw) : Reply tw :=
  if Halted r then refuse r
  else
    match encodeCompact r.ts r.tm.toNat with
    | none => raiseFatal .encOverflow r
    | some c => respond 0 { r with cb := c }

/-- `DEC` (40_codec.md R56). -/
def execDec (s : State) : Host.Outcome State Fault Refusal := finish s (decReply s.regs)

/-- `ENC` (40_codec.md R57). -/
def execEnc (s : State) : Host.Outcome State Fault Refusal := finish s (encReply s.regs)

end Sys2Proof.Machine
end

