-- ==== Sys2Proof/Machine/Work.lean ====
section
/-! DEFINITION. The work family: the two divisions and the commands `WRKT`, `WRKC` and `DIVT` (41_work.md R65 to R71). -/

namespace Sys2Proof.Machine

variable {tw : Nat}

/-- `work_of_target`: 0 for a target that is zero or negative, otherwise the floor of `2^256 / (target + 1)`, on unbounded
integers (41_work.md R65, R66). -/
def workOfTarget (s : BitVec 1) (mag : Nat) : Nat :=
  if s = 1 ∨ mag = 0 then 0 else Config.workDividend / (mag + 1)

/-- `div_time` for a hash rate of at least 1: the floor of the quotient (41_work.md R70). -/
def divTime (w h : Nat) : Nat := w / h

/-- `WK` takes the work of the target registers; it always fits (41_work.md R67, R68). -/
def writeWork (r : Regs tw) : Regs tw := { r with wk := BitVec.ofNat Config.WW (workOfTarget r.ts r.tm.toNat) }

/-- `WRKT` on the registers (41_work.md R68). -/
def wrktReply (r : Regs tw) : Reply tw :=
  if Halted r then refuse r else respond 0 (writeWork r)

/-- `WRKC` on the registers: decode, then the work of the values just written (41_work.md R69). -/
def wrkcReply (r : Regs tw) : Reply tw :=
  if Halted r then refuse r
  else if DecodeOverflows tw r.cb then raiseFatal .decOverflow r
  else respond 0 (writeWork (writeTarget (decodeCompact r.cb) r))

/-- `DIVT` on the registers (41_work.md R71). -/
def divtReply (r : Regs tw) : Reply tw :=
  if Halted r then refuse r
  else if r.hr = 0 then raiseFatal .divZero r
  else respond 0 { r with tt := BitVec.ofNat Config.QW (divTime r.wk.toNat r.hr.toNat) }

/-- `WRKT` (41_work.md R68). -/
def execWrkt (s : State) : Host.Outcome State Fault Refusal := finish s (wrktReply s.regs)

/-- `WRKC` (41_work.md R69). -/
def execWrkc (s : State) : Host.Outcome State Fault Refusal := finish s (wrkcReply s.regs)

/-- `DIVT` (41_work.md R71). -/
def execDivt (s : State) : Host.Outcome State Fault Refusal := finish s (divtReply s.regs)

end Sys2Proof.Machine
end

