-- ==== Sys2Proof/Machine/Dispatch.lean ====
section
/-! DEFINITION. One arm per command, each one call of its meaning (30_encoding.md R42). -/

namespace Sys2Proof.Machine

def exec (i : Instr) (s : State) : Host.Outcome State Fault Refusal :=
  match i with
  | .get r k => Sys2Proof.Machine.execGet r k s
  | .put r k => Sys2Proof.Machine.execPut r k s
  | .dec => Sys2Proof.Machine.execDec s
  | .enc => Sys2Proof.Machine.execEnc s
  | .wrkt => Sys2Proof.Machine.execWrkt s
  | .wrkc => Sys2Proof.Machine.execWrkc s
  | .divt => Sys2Proof.Machine.execDivt s

end Sys2Proof.Machine
end

