-- ==== Sys2Proof/Decode.lean ====
section
/-! DEFINITION. Command words: the decoder, total on every 32-bit word and rejecting by the name of the case of R47, and
the encoder (30_encoding.md R39 to R47). -/

namespace Sys2Proof

/-- Why a word is illegal: the cases (a) to (f) of 30_encoding.md R47. All of them raise the one cause `ILLEGAL_CMD`, so
which is named when several hold cannot be observed (60_exceptions.md R86). -/
inductive Illegal
  /-- (a) `op` is none of the seven defined values. -/
  | undefinedOpcode
  /-- (b) format C with bits 23:0 not all zero. -/
  | reservedBitsC
  /-- (c) format M with bits 7:0 not all zero. -/
  | reservedBitsM
  /-- (d) format M with a register id of `0x07` or more. -/
  | noSuchRegister
  /-- (e) format M with `k ≥ limbs(r)`. -/
  | limbOutOfRange
  /-- (f) `PUT` to a read-only register. -/
  | readOnlyRegister
  deriving DecidableEq, Repr

/-- The seven defined values of the opcode field (30_encoding.md R42). -/
inductive Opcode
  | get | put | dec | enc | wrkt | wrkc | divt
  deriving DecidableEq, Repr

/-- The opcode map (30_encoding.md R42). -/
def Opcode.byte : Opcode → Byte
  | .get => 0x01#8
  | .put => 0x02#8
  | .dec => 0x10#8
  | .enc => 0x11#8
  | .wrkt => 0x20#8
  | .wrkc => 0x21#8
  | .divt => 0x22#8

/-- The opcode a value of the `op` field stands for; the other 249 values are undefined (30_encoding.md R42). -/
def opcodeOf (b : Byte) : Option Opcode :=
  if b = 0x01#8 then some .get
  else if b = 0x02#8 then some .put
  else if b = 0x10#8 then some .dec
  else if b = 0x11#8 then some .enc
  else if b = 0x20#8 then some .wrkt
  else if b = 0x21#8 then some .wrkc
  else if b = 0x22#8 then some .divt
  else none

/-- The register ids (20_memory.md R24, 30_encoding.md R43). -/
def Reg.id : Reg → Byte
  | .cb => 0x00#8
  | .ts => 0x01#8
  | .tm => 0x02#8
  | .wk => 0x03#8
  | .hr => 0x04#8
  | .tt => 0x05#8
  | .sr => 0x06#8

/-- The register an id names; ids `0x07` to `0xff` name none (30_encoding.md R43). -/
def regOf (b : Byte) : Option Reg :=
  if b = 0x00#8 then some .cb
  else if b = 0x01#8 then some .ts
  else if b = 0x02#8 then some .tm
  else if b = 0x03#8 then some .wk
  else if b = 0x04#8 then some .hr
  else if b = 0x05#8 then some .tt
  else if b = 0x06#8 then some .sr
  else none

/-- Field `op`, bits 31:24 of a command word (30_encoding.md R40, R41). -/
def opField (c : Word32) : Byte := c.extractLsb' 24 8

/-- Field `r` of format M, bits 23:16 (30_encoding.md R40). -/
def regField (c : Word32) : Byte := c.extractLsb' 16 8

/-- Field `k` of format M, bits 15:8 (30_encoding.md R40). -/
def limbField (c : Word32) : Byte := c.extractLsb' 8 8

/-- Field `z` of format M, bits 7:0 (30_encoding.md R40). -/
def reservedM (c : Word32) : Byte := c.extractLsb' 0 8

/-- Field `z` of format C, bits 23:0 (30_encoding.md R41). -/
def reservedC (c : Word32) : BitVec 24 := c.extractLsb' 0 24

/-- A format C word: the compute command when bits 23:0 are zero (30_encoding.md R46). -/
def decodeC (i : Instr) (c : Word32) : Except Illegal Instr :=
  if reservedC c = 0 then .ok i else .error .reservedBitsC

/-- The address of a format M word, when it is valid (30_encoding.md R46). -/
def decodeM (tw : Nat) (c : Word32) : Except Illegal (Reg × Byte) :=
  if reservedM c ≠ 0 then .error .reservedBitsM
  else
    match regOf (regField c) with
    | none => .error .noSuchRegister
    | some r => if ValidAddress tw r (limbField c) then .ok (r, limbField c) else .error .limbOutOfRange

/-- `GET` of a valid address (30_encoding.md R46). -/
def decodeGet (tw : Nat) (c : Word32) : Except Illegal Instr :=
  match decodeM tw c with
  | .error e => .error e
  | .ok (r, k) => .ok (.get r k)

/-- `PUT` of a valid address of a host-writable register (30_encoding.md R46). -/
def decodePut (tw : Nat) (c : Word32) : Except Illegal Instr :=
  match decodeM tw c with
  | .error e => .error e
  | .ok (r, k) => if r.hostWritable then .ok (.put r k) else .error .readOnlyRegister

/-- How the block classifies a word: from the word alone, totally (30_encoding.md R46). -/
def decodeCommand (tw : Nat) (c : Word32) : Except Illegal Instr :=
  match opcodeOf (opField c) with
  | none => .error .undefinedOpcode
  | some .get => decodeGet tw c
  | some .put => decodePut tw c
  | some .dec => decodeC .dec c
  | some .enc => decodeC .enc c
  | some .wrkt => decodeC .wrkt c
  | some .wrkc => decodeC .wrkc c
  | some .divt => decodeC .divt c

/-- A format M word (30_encoding.md R40). -/
def wordM (op : Opcode) (r : Reg) (k : Byte) : Word32 := op.byte ++ r.id ++ k ++ 0x00#8

/-- A format C word (30_encoding.md R41). -/
def wordC (op : Opcode) : Word32 := op.byte ++ 0x000000#24

/-- The one command word of a well-formed command (30_encoding.md R42). -/
def encode : Instr → Word32
  | .get r k => wordM .get r k
  | .put r k => wordM .put r k
  | .dec => wordC .dec
  | .enc => wordC .enc
  | .wrkt => wordC .wrkt
  | .wrkc => wordC .wrkc
  | .divt => wordC .divt

/-- All registers, in the order of their ids (30_encoding.md R43). -/
def allRegs : List Reg := [.cb, .ts, .tm, .wk, .hr, .tt, .sr]

/-- The valid limb indices of a register, as bytes (20_memory.md R24). -/
def limbIndices (tw : Nat) (r : Reg) : List Byte := (List.range (r.limbs tw)).map (BitVec.ofNat 8)

/-- The legal commands one after the other: every `GET`, every `PUT`, the five compute commands (30_encoding.md R42). -/
def legalCommands (tw : Nat) : List Instr :=
  (allRegs.flatMap fun r => (limbIndices tw r).map fun k => Instr.get r k)
    ++ ((allRegs.filter Reg.hostWritable).flatMap fun r => (limbIndices tw r).map fun k => Instr.put r k)
    ++ [.dec, .enc, .wrkt, .wrkc, .divt]

/-- The command word the host presents when the bits of an instruction are the number `w`, bit 0 least significant: one
32-bit value, the bits above `nbits` zero (20_memory.md R26, R30: there is no instruction byte order). -/
def commandWordOf (nbits w : Nat) : Word32 := BitVec.ofNat 32 (w % 2 ^ nbits)

/-- The command the decoder reads from a table row's word, at this hardware's width. -/
def decodeTableWord (nbits w : Nat) : Option Instr :=
  match decodeCommand Config.TW (commandWordOf nbits w) with
  | .ok i => some i
  | .error _ => none

end Sys2Proof
end

