-- ==== Sys2Proof/Machine/HostPort.lean ====
section
/-! DEFINITION. The command port at the level of whole transactions: the spec's own `step` on the seven registers for any
target width (00_scope.md R8), runs of command lists (70_reset_and_hazards.md R99), and the pieces of the machine's step
that take the host's inputs (20_memory.md R30, R33). -/

namespace Sys2Proof.Machine

variable {tw : Nat}

/-- What a legal command does to the registers, with its data word (00_scope.md R8). -/
def commandReply (i : Instr) (wdata : Word32) (x : Regs tw) : Reply tw :=
  match i with
  | .get r k => getReply r k x
  | .put r k => putReply r k wdata x
  | .dec => decReply x
  | .enc => encReply x
  | .wrkt => wrktReply x
  | .wrkc => wrkcReply x
  | .divt => divtReply x

/-- The `step` of 00_scope.md R8 at any target width: one transaction, total on every command word. -/
def transact (cmd wdata : Word32) (x : Regs tw) : Reply tw :=
  match decodeCommand tw cmd with
  | .ok i => commandReply i wdata x
  | .error _ => illegalCommand x

/-- A command word with its data word, one entry of a run (70_reset_and_hazards.md R99). -/
structure Request where
  /-- The command word. -/
  cmd : Word32
  /-- The data word. -/
  wdata : Word32
  deriving DecidableEq, Repr

/-- A run: the requests applied in order; its result is the final registers and the list of responses
(70_reset_and_hazards.md R99). -/
def runRequests : List Request → Regs tw → Regs tw × List Word32
  | [], x => (x, [])
  | q :: qs, x =>
    let a := transact q.cmd q.wdata x
    ((runRequests qs a.regs).1, a.rdata :: (runRequests qs a.regs).2)

/-- Nothing is offered: the block idles, no response is given (60_exceptions.md R93, 70_reset_and_hazards.md R96). -/
def idle (s : State) : State := { s with rsp := none }

/-- The reset transition: the reset state, whatever the state was; what the host offers later is still to come
(00_scope.md R8, 70_reset_and_hazards.md R94, R95). -/
def takeReset (rest : List PortEvent) : State := { State.reset with inbox := rest }

/-- A command is accepted: its data word is the one the command reads (20_memory.md R30). -/
def accept (wdata : Word32) (rest : List PortEvent) (s : State) : State := { s with inbox := rest, wdata := wdata }

/-- A word that is no command (30_encoding.md R47). -/
def execIllegal (s : State) : Host.Outcome State Fault Refusal := finish s (illegalCommand s.regs)

/-- The host offers a command word before its other inputs, with the data word that stands on the port. -/
def offerFirst (cmd : Word32) (s : State) : State := { s with inbox := .command cmd s.wdata :: s.inbox }

end Sys2Proof.Machine
end

