-- ==== Sys2Proof/Machine/Step.lean ====
section
/-! DEFINITION. One step of the machine: it takes the host's oldest input (20_memory.md R34) and is total. -/

namespace Sys2Proof.Machine

/-- A command word that has been accepted: the command it decodes to, or the illegal command (30_encoding.md R46). -/
def runWord (cmd : Word32) (s : State) : Host.Outcome State Fault Refusal :=
  match decodeCommand Config.TW cmd with
  | .ok i => exec i s
  | .error _ => execIllegal s

/-- One step: a transaction (20_memory.md R30), a reset (R33), or an idle step when nothing is offered
(70_reset_and_hazards.md R96). -/
def step (s : State) : Host.Outcome State Fault Refusal :=
  match s.inbox with
  | [] => .next (idle s)
  | .reset :: rest => .next (takeReset rest)
  | .command cmd wdata :: rest => runWord cmd (accept wdata rest s)

/-- The host offers the word `w` as the next command; this stands for the load of a program, since commands come from the
host alone (10_state.md R20; log entry 2). -/
def State.withFetchWord (s : State) (nbits w : Nat) : State := offerFirst (commandWordOf nbits w) s

end Sys2Proof.Machine
end

