-- ==== Sys2Proof/Machine/Assembler.lean ====
section
/-! DEFINITION. The assembler of command lists: the lines of 30_encoding.md R49, the pseudo-instructions of R50 and the
escape `RAW`, from characters to requests. It drives the block from the host's side; the block holds none of it. -/

namespace Sys2Proof.Machine

/-- One line of a command list (30_encoding.md R49, R50). An index that is left out is `none`. -/
inductive AsmLine
  /-- `GET reg[k]`. -/
  | get (r : Reg) (k : Option Nat)
  /-- `PUT reg[k], imm32`. -/
  | put (r : Reg) (k : Option Nat) (imm : Nat)
  /-- A compute command's bare mnemonic. -/
  | dec | enc | wrkt | wrkc | divt
  /-- `PUTW reg, imm`. -/
  | putw (r : Reg) (imm : Nat)
  /-- `GETW reg`. -/
  | getw (r : Reg)
  /-- `RAW word, data`. -/
  | raw (word data : Nat)
  deriving DecidableEq, Repr

/-- The index of a line: in range, or left out for a one-limb register (30_encoding.md R49). -/
def resolveIndex (tw : Nat) (r : Reg) : Option Nat → Option Byte
  | some k => if k < r.limbs tw ∧ k < 256 then some (BitVec.ofNat 8 k) else none
  | none => if r.limbs tw = 1 then some 0 else none

/-- `limb(x, k)` of an unsigned integer (00_scope.md R6). -/
def limbOf (x k : Nat) : Word32 := BitVec.ofNat 32 (x / 2 ^ (32 * k))

/-- The request of a command whose data word is ignored, "written as 0" (30_encoding.md R49). -/
def plainRequest (i : Instr) : Request := { cmd := encode i, wdata := 0 }

/-- A line's requests; `none` where the assembler refuses the line (30_encoding.md R49, R50). -/
def assembleLine (tw : Nat) : AsmLine → Option (List Request)
  | .get r k => (resolveIndex tw r k).map fun k => [plainRequest (.get r k)]
  | .put r k imm =>
    if r.hostWritable = true ∧ imm < 2 ^ 32 then
      (resolveIndex tw r k).map fun k => [{ cmd := encode (.put r k), wdata := BitVec.ofNat 32 imm }]
    else none
  | .dec => some [plainRequest .dec]
  | .enc => some [plainRequest .enc]
  | .wrkt => some [plainRequest .wrkt]
  | .wrkc => some [plainRequest .wrkc]
  | .divt => some [plainRequest .divt]
  | .putw r imm =>
    if r.hostWritable = true ∧ imm < 2 ^ (32 * r.limbs tw) then
      some ((limbIndices tw r).map fun k => { cmd := encode (.put r k), wdata := limbOf imm k.toNat })
    else none
  | .getw r => some ((limbIndices tw r).map fun k => plainRequest (.get r k))
  | .raw word data =>
    if word < 2 ^ 32 ∧ data < 2 ^ 32 then
      some [{ cmd := BitVec.ofNat 32 word, wdata := BitVec.ofNat 32 data }]
    else none

/-- A program: its lines in order (30_encoding.md R49). -/
def assemble (tw : Nat) : List AsmLine → Option (List Request)
  | [] => some []
  | l :: ls =>
    match assembleLine tw l, assemble tw ls with
    | some q, some qs => some (q ++ qs)
    | _, _ => none

/-- The tokens of a line's text (30_encoding.md R49). -/
inductive Token
  | name (cs : List Char)
  | number (n : Nat)
  | lbracket
  | rbracket
  | comma
  deriving DecidableEq, Repr

/-- A hexadecimal digit, in either case. -/
def digitValue (c : Char) : Option Nat :=
  if 48 ≤ c.toNat ∧ c.toNat ≤ 57 then some (c.toNat - 48)
  else if 97 ≤ c.toNat ∧ c.toNat ≤ 102 then some (c.toNat - 87)
  else if 65 ≤ c.toNat ∧ c.toNat ≤ 70 then some (c.toNat - 55)
  else none

/-- Digits to the given base, most significant first, after the value `acc`. -/
def digitsValue (base acc : Nat) : List Char → Option Nat
  | [] => some acc
  | c :: cs =>
    match digitValue c with
    | some d => if d < base then digitsValue base (base * acc + d) cs else none
    | none => none

/-- A word of the text: a decimal or `0x` hexadecimal number, or a name (30_encoding.md R49). -/
def classify : List Char → Option Token
  | [] => none
  | '0' :: 'x' :: c :: cs => (digitsValue 16 0 (c :: cs)).map .number
  | c :: cs =>
    if 48 ≤ c.toNat ∧ c.toNat ≤ 57 then (digitsValue 10 0 (c :: cs)).map .number else some (.name (c :: cs))

/-- The token that ends, if any, before the tokens that follow it; `buf` is its text, last character first. -/
def flush (buf : List Char) (rest : Option (List Token)) : Option (List Token) :=
  match buf with
  | [] => rest
  | _ :: _ =>
    match classify buf.reverse, rest with
    | some t, some ts => some (t :: ts)
    | _, _ => none

/-- The tokens of a line; `;` starts a comment (30_encoding.md R49; log entry 6 for the spaces between tokens). -/
def tokens : List Char → List Char → Option (List Token)
  | buf, [] => flush buf (some [])
  | buf, c :: cs =>
    if c = ';' then flush buf (some [])
    else if c = ' ' then flush buf (tokens [] cs)
    else if c = '[' then flush buf ((tokens [] cs).map (Token.lbracket :: ·))
    else if c = ']' then flush buf ((tokens [] cs).map (Token.rbracket :: ·))
    else if c = ',' then flush buf ((tokens [] cs).map (Token.comma :: ·))
    else tokens (c :: buf) cs

/-- The register names (30_encoding.md R49). -/
def regNamed (n : List Char) : Option Reg :=
  if n = ['C', 'B'] then some .cb
  else if n = ['T', 'S'] then some .ts
  else if n = ['T', 'M'] then some .tm
  else if n = ['W', 'K'] then some .wk
  else if n = ['H', 'R'] then some .hr
  else if n = ['T', 'T'] then some .tt
  else if n = ['S', 'R'] then some .sr
  else none

/-- `reg[k]`, or `reg` alone, and the tokens after it. -/
def regOperand : List Token → Option (Reg × Option Nat × List Token)
  | .name n :: .lbracket :: .number k :: .rbracket :: rest => (regNamed n).map fun r => (r, some k, rest)
  | .name n :: rest => (regNamed n).map fun r => (r, none, rest)
  | _ => none

/-- The operands after a mnemonic (30_encoding.md R49, R50). -/
def parseOperands (m : List Char) (ts : List Token) : Option AsmLine :=
  if m = ['D', 'E', 'C'] then if ts = [] then some .dec else none
  else if m = ['E', 'N', 'C'] then if ts = [] then some .enc else none
  else if m = ['W', 'R', 'K', 'T'] then if ts = [] then some .wrkt else none
  else if m = ['W', 'R', 'K', 'C'] then if ts = [] then some .wrkc else none
  else if m = ['D', 'I', 'V', 'T'] then if ts = [] then some .divt else none
  else if m = ['R', 'A', 'W'] then
    match ts with
    | [.number w, .comma, .number d] => some (.raw w d)
    | _ => none
  else if m = ['G', 'E', 'T'] then
    match regOperand ts with
    | some (r, k, []) => some (.get r k)
    | _ => none
  else if m = ['P', 'U', 'T'] then
    match regOperand ts with
    | some (r, k, [.comma, .number v]) => some (.put r k v)
    | _ => none
  else if m = ['G', 'E', 'T', 'W'] then
    match regOperand ts with
    | some (r, none, []) => some (.getw r)
    | _ => none
  else if m = ['P', 'U', 'T', 'W'] then
    match regOperand ts with
    | some (r, none, [.comma, .number v]) => some (.putw r v)
    | _ => none
  else none

/-- One line of text: `none` where it is no line of R49, `some none` where it holds no command. -/
def parseLine (text : List Char) : Option (Option AsmLine) :=
  match tokens [] text with
  | none => none
  | some [] => some none
  | some (.name m :: ts) => (parseOperands m ts).map some
  | some (_ :: _) => none

/-- The lines of a program's text, one command per line (30_encoding.md R49). -/
def parseLines : List (List Char) → Option (List AsmLine)
  | [] => some []
  | t :: ts =>
    match parseLine t, parseLines ts with
    | some none, some ls => some ls
    | some (some l), some ls => some (l :: ls)
    | _, _ => none

/-- A program's text to the requests the host issues (30_encoding.md R49, R50). -/
def assembleText (tw : Nat) (text : List (List Char)) : Option (List Request) :=
  match parseLines text with
  | some ls => assemble tw ls
  | none => none

end Sys2Proof.Machine
end

