-- ==== Sys2Proof/Machine/Signals.lean ====
section
/-! DEFINITION. The command port at the level of pins: the ports of 20_memory.md R31, the handshake of R32 and the reset
input of R33, one rising clock edge at a time, around the transaction of Machine/HostPort.lean. -/

namespace Sys2Proof.Machine

variable {tw : Nat}

/-- The input pins, as sampled on a rising clock edge (20_memory.md R31). -/
structure Pins where
  /-- `rst`, active high. -/
  rst : Bool
  /-- `cmd_valid`. -/
  cmdValid : Bool
  /-- `cmd`. -/
  cmd : Word32
  /-- `wdata`. -/
  wdata : Word32
  deriving DecidableEq, Repr

/-- Where the handshake stands in the cycle after a clock edge (20_memory.md R32, R33). -/
inductive Phase
  /-- Reset was sampled high on the last edge: `cmd_ready` is low. -/
  | inReset
  /-- `cmd_ready` is high, nothing is in the block. -/
  | ready
  /-- A command is in the block; `left` more edges pass before the edge that completes it. -/
  | busy (cmd wdata : Word32) (left : Nat)
  /-- The one cycle in which `rsp_valid` is high. -/
  | responding (rdata : Word32)
  deriving DecidableEq, Repr

/-- The block seen at its pins: the registers and the phase of the handshake. -/
structure Signals (tw : Nat) where
  /-- The seven registers. -/
  regs : Regs tw
  /-- The phase of the handshake. -/
  phase : Phase
  deriving DecidableEq, Repr

/-- The output pin `cmd_ready` (20_memory.md R31, R32). -/
def cmdReady (g : Signals tw) : Bool :=
  match g.phase with
  | .ready => true
  | .inReset => false
  | .busy _ _ _ => false
  | .responding _ => false

/-- The output pins `rsp_valid` and `rdata`: `rdata` means something only while `rsp_valid` is high (20_memory.md R31). -/
def response (g : Signals tw) : Option Word32 :=
  match g.phase with
  | .responding v => some v
  | .inReset => none
  | .ready => none
  | .busy _ _ _ => none

/-- The output pin `fatal`, a level copy of `SR.FATAL` (60_exceptions.md R89). -/
def fatalPin (g : Signals tw) : BitVec 1 := fatalLine g.regs

/-- `LAT` of a command accepted with these registers, less one (70_reset_and_hazards.md R104: at least one cycle). A
refused command of a halted block and the same command executed differ in `SR`, so their numbers are not tied together
(log entry 5). -/
def cyclesLeft (cmd wdata : Word32) (x : Regs tw) : Nat :=
  Config.extraCycles tw cmd wdata x.cb x.ts x.tm.toNat x.wk.toNat x.hr.toNat x.tt.toNat x.sr.fatal x.sr.cause

/-- One rising clock edge. Reset wins over everything (60_exceptions.md R90); a command is accepted when `cmd_valid` and
`cmd_ready` are both high; the registers take its result on the edge that begins the response cycle (log entry 5);
`cmd_ready` rises in the cycle after the response (20_memory.md R32, R33). -/
def clockEdge (p : Pins) (g : Signals tw) : Signals tw :=
  if p.rst then { regs := Regs.reset tw, phase := .inReset }
  else
    match g.phase with
    | .inReset => { g with phase := .ready }
    | .ready => if p.cmdValid then { g with phase := .busy p.cmd p.wdata (cyclesLeft p.cmd p.wdata g.regs) } else g
    | .busy cmd wdata 0 =>
      { regs := (transact cmd wdata g.regs).regs, phase := .responding (transact cmd wdata g.regs).rdata }
    | .busy cmd wdata (n + 1) => { g with phase := .busy cmd wdata n }
    | .responding _ => { g with phase := .ready }

/-- Clock edges one after the other, oldest first. -/
def clockEdges : List Pins → Signals tw → Signals tw
  | [], g => g
  | p :: ps, g => clockEdges ps (clockEdge p g)

/-- The host's duty while a command is offered and not yet accepted: the offer stands on the next edge, unchanged
(20_memory.md R32, 70_reset_and_hazards.md R103). -/
abbrev HostHolds (g : Signals tw) (now later : Pins) : Prop :=
  now.cmdValid = true → cmdReady g = false → later.cmdValid = true ∧ later.cmd = now.cmd ∧ later.wdata = now.wdata

end Sys2Proof.Machine
end

