-- ==== Sys2Proof/Safety.lean ====
section
/-! DEFINITION. What the claims speak of: good ends of a run, the invariants of the reachable states, the illegal words as
R47 lists them, canonical compact words. -/

namespace Sys2Proof.Machine

variable {tw : Nat}

/-- A run has not gone wrong: the block is not halted at its end (60_exceptions.md R87, 70_reset_and_hazards.md R99). -/
abbrev Good (x : Regs tw) : Prop := x.sr.fatal = 0

/-- `SR` reads as one of the five values of 10_state.md R18. -/
abbrev StatusLegal (x : SR) : Prop :=
  x.word = 0x00000000#32 ∨ x.word = 0x00000011#32 ∨ x.word = 0x00000021#32 ∨ x.word = 0x00000031#32
    ∨ x.word = 0x00000041#32

/-- A number is the work of some target (41_work.md R65). -/
def IsWork (w : Nat) : Prop := ∃ s mag, w = workOfTarget s mag

/-- A number is a quotient of a work by a hash rate of at least 1 (41_work.md R70). -/
def IsTime (q : Nat) : Prop := ∃ w h, IsWork w ∧ 1 ≤ h ∧ q = w / h

/-- What holds of the registers in every state a run reaches (10_state.md R18, 42_register_access.md R79): the status is
legal, `WK` is a work, `TT` is a quotient of a work. -/
def RegsInv (x : Regs tw) : Prop := StatusLegal x.sr ∧ IsWork x.wk.toNat ∧ IsTime x.tt.toNat

/-- The field `hi:lo` of a word as a number, `floor(c / 2^lo) mod 2^(hi-lo+1)` (00_scope.md R5). -/
def field (c : Word32) (hi lo : Nat) : Nat := c.toNat / 2 ^ lo % 2 ^ (hi - lo + 1)

/-- The magnitude of a compact value by 40_codec.md R51, in the arithmetic of the rule: the mantissa times a power of 256, or
the floor of its quotient by one. -/
def compactMag (c : Word32) : Nat :=
  if field c 31 24 ≤ 3 then field c 22 0 / 256 ^ (3 - field c 31 24) else field c 22 0 * 256 ^ (field c 31 24 - 3)

/-- `limbs(r)` by register id; no limb for an id that names no register (20_memory.md R24). -/
def limbsOfId (tw id : Nat) : Nat :=
  if id = 0 ∨ id = 1 ∨ id = 6 then 1 else if id = 2 then tw / 32 else if id = 3 ∨ id = 4 ∨ id = 5 then 8 else 0

/-- The format C opcodes (30_encoding.md R41). -/
abbrev FormatC (c : Word32) : Prop := field c 31 24 ∈ [0x10, 0x11, 0x20, 0x21, 0x22]

/-- The format M opcodes (30_encoding.md R40). -/
abbrev FormatM (c : Word32) : Prop := field c 31 24 ∈ [0x01, 0x02]

/-- A word is illegal: the six cases of 30_encoding.md R47, in the words of the rule. -/
abbrev IllegalWord (tw : Nat) (c : Word32) : Prop :=
  (¬FormatC c ∧ ¬FormatM c)
    ∨ (FormatC c ∧ field c 23 0 ≠ 0)
    ∨ (FormatM c ∧ field c 7 0 ≠ 0)
    ∨ (FormatM c ∧ 0x07 ≤ field c 23 16)
    ∨ (FormatM c ∧ limbsOfId tw (field c 23 16) ≤ field c 15 8)
    ∨ (field c 31 24 = 0x02 ∧ field c 23 16 ∈ [0x03, 0x05, 0x06])

/-- A compact word that `DEC` then `ENC` gives back (40_codec.md R59). -/
def Canonical (c : Word32) : Prop :=
  c = 0 ∨ (1 ≤ exponentField c ∧ 0x008000 ≤ mantissaField c
    ∧ mantissaField c % 2 ^ (8 * (3 - exponentField c)) = 0)

/-- No register but `SR` differs (60_exceptions.md R85). -/
abbrev SameButStatus (x y : Regs tw) : Prop := y = { x with sr := y.sr }

end Sys2Proof.Machine
end

