-- ==== Sys2Proof/Certificates/Slice0/Obligations.lean ====
section
/-! DEFINITION. The statements for the provers. A statement over `tw` is about the block at any target width; one over
`State` is about the machine the host runs, at `Config.TW = 256`. -/

open Sys2Proof Sys2Proof.Machine

/- Encodings. -/

/-- Sample words of every command, written out from 30_encoding.md R40 to R42, decode to the command they stand for. -/
def Obligations.SampleWordsDecode : Prop :=
  decodeTableWord 32 0x01020700 = some (.get .tm 7)
    ∧ decodeTableWord 32 0x01060000 = some (.get .sr 0)
    ∧ decodeTableWord 32 0x02040100 = some (.put .hr 1)
    ∧ decodeTableWord 32 0x02010000 = some (.put .ts 0)
    ∧ decodeTableWord 32 0x10000000 = some .dec
    ∧ decodeTableWord 32 0x11000000 = some .enc
    ∧ decodeTableWord 32 0x20000000 = some .wrkt
    ∧ decodeTableWord 32 0x21000000 = some .wrkc
    ∧ decodeTableWord 32 0x22000000 = some .divt

/-- Decoding the word of a well-formed command gives the command back, at every target width (30_encoding.md R42, R46). -/
def Obligations.DecodeOfEncode : Prop :=
  ∀ (tw : Nat) (i : Instr), i.WF tw → decodeCommand tw (encode i) = .ok i

/-- A word that decodes is the one word of a well-formed command: no bit of it is ignored (30_encoding.md R42, R46). -/
def Obligations.DecodedWordIsTheEncoding : Prop :=
  ∀ (tw : Nat) (c : Word32) (i : Instr), decodeCommand tw c = .ok i → i.WF tw ∧ encode i = c

/-- The illegal words are the ones R47 lists; an illegal word raises `ILLEGAL_CMD` and changes nothing else, and is refused
while halted. -/
def Obligations.IllegalWordsAndTheirEffect : Prop :=
  ∀ (tw : Nat) (c w : Word32) (x : Regs tw),
    ((¬∃ i, decodeCommand tw c = .ok i) ↔ IllegalWord tw c)
      ∧ IllegalWord tw 0x00000000#32 ∧ IllegalWord tw 0xffffffff#32
      ∧ (IllegalWord tw c → x.sr.fatal ≠ 1 →
          transact c w x = { regs := { x with sr := { fatal := 1, cause := 1 } }, rdata := 0 })
      ∧ (IllegalWord tw c → x.sr.fatal = 1 → transact c w x = { regs := x, rdata := 0 })

/-- Of the `2^32` words exactly 58 are legal at this hardware's width (30_encoding.md R42, R46). -/
def Obligations.FiftyEightLegalWords : Prop :=
  ((legalCommands Config.TW).map encode).length = 58
    ∧ ((legalCommands Config.TW).map encode).Nodup
    ∧ ∀ c : Word32, (∃ i, decodeCommand Config.TW c = .ok i) ↔ c ∈ (legalCommands Config.TW).map encode

/- The step. -/

/-- A step on a command word that decodes runs the decoded command, with the data word offered beside it and the later
inputs of the host left as they are (30_encoding.md R46, 20_memory.md R30). The port fields are the model's (log entry 2). -/
def Obligations.StepRunsTheDecodedCommand : Prop :=
  ∀ (s : State) (c w : Word32) (rest : List PortEvent) (i : Instr),
    s.inbox = .command c w :: rest → decodeCommand Config.TW c = .ok i →
      i.WF Config.TW ∧ step s = exec i { s with inbox := rest, wdata := w }

/-- A step on any command word is the transaction of 00_scope.md R8 on the seven registers: the next registers and the one
response (20_memory.md R30). -/
def Obligations.StepIsTheTransaction : Prop :=
  ∀ (s : State) (c w : Word32) (rest : List PortEvent), s.inbox = .command c w :: rest →
    step s = .next { regs := (transact c w s.regs).regs, inbox := rest, wdata := w,
                     rsp := some (transact c w s.regs).rdata }

/-- A reset input gives the reset state from any state, with no response (20_memory.md R33, 70_reset_and_hazards.md R95);
with nothing offered no register changes and no response is given (R96). That the port fields are as they are is the
model's choice (log entry 2). -/
def Obligations.StepOnResetAndWhenIdle : Prop :=
  ∀ (s : State) (rest : List PortEvent),
    (s.inbox = .reset :: rest →
      step s = .next { regs := { cb := 0, ts := 0, tm := 0, wk := 0, hr := 0, tt := 0, sr := { fatal := 0, cause := 0 } },
                       inbox := rest, wdata := 0, rsp := none })
      ∧ (s.inbox = [] → step s = .next { s with rsp := none })

/-- The step is total: no command word hangs the block, and every command gets its response (00_scope.md R8,
20_memory.md R32). -/
def Obligations.EveryStepGivesANextState : Prop :=
  ∀ s : State, ∃ t, step s = .next t ∧ ∀ c w rest, s.inbox = .command c w :: rest → ∃ v, t.rsp = some v

/-- The reset state and what the first compute command does to it, at every target width (10_state.md R22). -/
def Obligations.ResetStateIsConsistent : Prop :=
  ∀ (tw : Nat) (w : Word32),
    Regs.reset tw = { cb := 0, ts := 0, tm := 0, wk := 0, hr := 0, tt := 0, sr := { fatal := 0, cause := 0 } }
      ∧ (Regs.reset tw).sr.word = 0
      ∧ targetValue { sign := (Regs.reset tw).ts, mag := (Regs.reset tw).tm.toNat } = 0
      ∧ encodeCompact (Regs.reset tw).ts (Regs.reset tw).tm.toNat = some (Regs.reset tw).cb
      ∧ workOfTarget (Regs.reset tw).ts (Regs.reset tw).tm.toNat = (Regs.reset tw).wk.toNat
      ∧ (∀ c ∈ [0x10000000#32, 0x11000000#32, 0x20000000#32, 0x21000000#32],
          transact c w (Regs.reset tw) = { regs := Regs.reset tw, rdata := 0 })
      ∧ transact 0x22000000#32 w (Regs.reset tw)
          = { regs := { Regs.reset tw with sr := { fatal := 1, cause := 4 } }, rdata := 0 }

/- The register-access family. -/

/-- `GET` of a valid address completes, halted or not, and responds limb `k` of the register; nothing else changes
(42_register_access.md R77, 60_exceptions.md R87). -/
def Obligations.GetRespondsTheLimb : Prop :=
  ∀ (s : State) (r : Reg) (k : Byte), ValidAddress Config.TW r k →
    exec (.get r k) s
      = .next { s with rsp := some (BitVec.ofNat 32 (regValue r s.regs / 2 ^ (32 * k.toNat))) }

/-- `SR` read as a word: `FATAL` in bit 0, `CAUSE` in bits 7:4, the other bits 0 (10_state.md R18). -/
def Obligations.StatusWordLayout : Prop :=
  ∀ x : SR, x.word.toNat = x.fatal.toNat + 16 * x.cause.toNat

/-- A register's value is the sum of its limbs, limb 0 least significant, and bit `i` of limb `k` is bit `32*k + i`
(20_memory.md R25). -/
def Obligations.LimbsMakeTheRegister : Prop :=
  ∀ (tw : Nat), Config.LegalWidth tw → ∀ (r : Reg) (x : Regs tw),
    ((List.range (r.limbs tw)).map fun k => (regRead r (BitVec.ofNat 8 k) x).toNat * 2 ^ (32 * k)).sum = regValue r x
      ∧ ∀ (k : Byte) (i : Nat), i < 32 →
          (regRead r k x).getLsbD i = (regValue r x).testBit (32 * k.toNat + i)

/-- `PUT` to a host-writable register completes when the block is not halted: of `CB` the whole, of `TS` bit 0 of the data
word, of `TM` and `HR` limb `k` alone; no other register changes and the response is 0 (42_register_access.md R78). -/
def Obligations.PutWritesTheLimb : Prop :=
  ∀ (s : State), s.regs.sr.fatal ≠ 1 →
    exec (.put .cb 0) s = .next { s with regs := { s.regs with cb := s.wdata }, rsp := some 0 }
      ∧ exec (.put .ts 0) s
          = .next { s with regs := { s.regs with ts := BitVec.ofNat 1 s.wdata.toNat }, rsp := some 0 }
      ∧ ∀ k : Byte, k.toNat < 8 →
          (∃ v, exec (.put .tm k) s = .next { s with regs := { s.regs with tm := v }, rsp := some 0 }
            ∧ ∀ j, j < 8 → v.toNat / 2 ^ (32 * j) % 2 ^ 32
                = if j = k.toNat then s.wdata.toNat else s.regs.tm.toNat / 2 ^ (32 * j) % 2 ^ 32)
          ∧ (∃ v, exec (.put .hr k) s = .next { s with regs := { s.regs with hr := v }, rsp := some 0 }
            ∧ ∀ j, j < 8 → v.toNat / 2 ^ (32 * j) % 2 ^ 32
                = if j = k.toNat then s.wdata.toNat else s.regs.hr.toNat / 2 ^ (32 * j) % 2 ^ 32)

/-- The same `PUT` word twice leaves the registers as once does (20_memory.md R28). -/
def Obligations.PutIsIdempotent : Prop :=
  ∀ (tw : Nat) (c w : Word32) (x : Regs tw), opField c = 0x02#8 →
    (transact c w (transact c w x).regs).regs = (transact c w x).regs

/-- Every read gives what the latest write wrote: a `GET` after a `PUT` to the same address gives the data word (bit 0 of it
for `TS`), a `GET` of any other address what it gave before (20_memory.md R34, 42_register_access.md R77, R78). -/
def Obligations.GetAfterPut : Prop :=
  ∀ (tw : Nat) (r q : Reg) (k j : Byte) (w : Word32) (x : Regs tw),
    Config.LegalWidth tw → x.sr.fatal ≠ 1 → r.hostWritable = true → ValidAddress tw r k → ValidAddress tw q j →
      (commandReply (.get q j) 0 (commandReply (.put r k) w x).regs).rdata
        = if q = r ∧ j = k then (if r = .ts then w &&& 1 else w) else (commandReply (.get q j) 0 x).rdata

/-- The data word is used by `PUT` alone, and every response but that of a legal `GET` is 0 (20_memory.md R30). -/
def Obligations.OnlyPutReadsTheDataWord : Prop :=
  ∀ (tw : Nat) (c w w' : Word32) (x : Regs tw),
    (opField c ≠ 0x02#8 → transact c w x = transact c w' x)
      ∧ ((∀ r k, decodeCommand tw c ≠ .ok (.get r k)) → (transact c w x).rdata = 0)

/-- A `GET` or `PUT` term whose address is not valid, or a `PUT` term of a read-only register, has no word of its own; `exec`
takes it for the illegal command that 20_memory.md R24 says it is: the model's choice, log entry 4. -/
def Obligations.InvalidAddressIsIllegal : Prop :=
  ∀ (s : State) (r : Reg) (k : Byte) (i : Instr), (i = .get r k ∨ i = .put r k) → ¬i.WF Config.TW →
    (s.regs.sr.fatal ≠ 1 →
        exec i s = .next { s with regs := { s.regs with sr := { fatal := 1, cause := 1 } }, rsp := some 0 })
      ∧ (s.regs.sr.fatal = 1 → exec i s = .next { s with rsp := some 0 })

/- The codec family. -/

/-- `DEC` completes when the block is not halted and the magnitude fits: `TM` takes the magnitude, `TS` the sign bit or 0
for a zero magnitude; nothing else changes and the response is 0 (40_codec.md R51, R56). -/
def Obligations.DecWritesTheTarget : Prop :=
  ∀ (s : State), s.regs.sr.fatal ≠ 1 → compactMag s.regs.cb < 2 ^ 256 →
    exec .dec s
      = .next { s with
          regs := { s.regs with
            tm := BitVec.ofNat 256 (compactMag s.regs.cb)
            ts := if compactMag s.regs.cb = 0 then 0 else BitVec.ofNat 1 (field s.regs.cb 23 23) }
          rsp := some 0 }

/-- Decode overflow: at any width the commands that decode raise `DEC_OVERFLOW` and write nothing exactly when the
magnitude is `2^TW` or more; the condition on the fields at 256 bits; a zero mantissa never overflows; at 2048 bits no word
does (40_codec.md R52). -/
def Obligations.DecodeOverflowFaults : Prop :=
  (∀ (tw : Nat) (w : Word32) (x : Regs tw), x.sr.fatal ≠ 1 → ∀ c ∈ [0x10000000#32, 0x21000000#32],
      (2 ^ tw ≤ compactMag x.cb →
        transact c w x = { regs := { x with sr := { fatal := 1, cause := 2 } }, rdata := 0 })
        ∧ (compactMag x.cb < 2 ^ tw → (transact c w x).regs.sr = x.sr))
    ∧ (∀ c : Word32, 2 ^ 256 ≤ compactMag c ↔
        field c 22 0 ≠ 0 ∧ (35 ≤ field c 31 24 ∨ (field c 31 24 = 34 ∧ 0xff < field c 22 0)
          ∨ (field c 31 24 = 33 ∧ 0xffff < field c 22 0)))
    ∧ (∀ c : Word32, field c 22 0 = 0 → compactMag c = 0)
    ∧ (∀ c : Word32, compactMag c < 2 ^ 2048)

/-- The sign of zero: which words have magnitude 0, and that the commands that decode then write `TS <- 0`, so that they
never leave the pair (`TS = 1`, `TM = 0`) (40_codec.md R53). -/
def Obligations.DecodedZeroHasNoSign : Prop :=
  (∀ c : Word32, compactMag c = 0 ↔
      field c 22 0 = 0 ∨ field c 31 24 = 0 ∨ (field c 31 24 = 1 ∧ field c 22 0 < 0x010000)
        ∨ (field c 31 24 = 2 ∧ field c 22 0 < 0x000100))
    ∧ ∀ (tw : Nat) (w : Word32) (x : Regs tw), x.sr.fatal ≠ 1 → ∀ c ∈ [0x10000000#32, 0x21000000#32],
        (compactMag x.cb = 0 → (transact c w x).regs.ts = 0 ∧ (transact c w x).regs.tm = 0)
          ∧ (compactMag x.cb < 2 ^ tw → ¬((transact c w x).regs.ts = 1 ∧ (transact c w x).regs.tm = 0))

/-- `ENC` completes whenever the block is not halted: it never faults at 256 bits, `CB` takes 0 for a zero magnitude and
otherwise the byte length, the sign and the top three bytes, with the fix-up when bit 23 of them is set; nothing else
changes (40_codec.md R54, R55, R57). -/
def Obligations.EncWritesTheCompactWord : Prop :=
  ∀ (s : State), s.regs.sr.fatal ≠ 1 →
    ∃ c, exec .enc s = .next { s with regs := { s.regs with cb := c }, rsp := some 0 }
      ∧ (s.regs.tm = 0 → c = 0)
      ∧ (s.regs.tm ≠ 0 → ∃ n top, 1 ≤ n ∧ 256 ^ (n - 1) ≤ s.regs.tm.toNat ∧ s.regs.tm.toNat < 256 ^ n
          ∧ top = (if n ≤ 3 then s.regs.tm.toNat * 256 ^ (3 - n) else s.regs.tm.toNat / 256 ^ (n - 3))
          ∧ field c 23 23 = s.regs.ts.toNat
          ∧ (top < 2 ^ 23 → field c 31 24 = n ∧ field c 22 0 = top)
          ∧ (2 ^ 23 ≤ top → field c 31 24 = n + 1 ∧ field c 22 0 = top / 256))

/-- Encode overflow: `ENC` raises `ENC_OVERFLOW` and writes nothing exactly when the magnitude has 256 bytes, or 255 with a
top byte of `0x80` or more; that needs a width above 2016, and at 256 bits the exponent `ENC` writes is at most 33
(40_codec.md R55). -/
def Obligations.EncodeOverflowNeedsAWideTarget : Prop :=
  ∀ (tw : Nat) (w : Word32) (x : Regs tw), Config.LegalWidth tw → x.sr.fatal ≠ 1 →
    ((byteLength x.tm.toNat = 256 ∨ (byteLength x.tm.toNat = 255 ∧ 0x80 ≤ byteDigit x.tm.toNat 254)) →
        transact 0x11000000#32 w x = { regs := { x with sr := { fatal := 1, cause := 3 } }, rdata := 0 })
      ∧ (¬(byteLength x.tm.toNat = 256 ∨ (byteLength x.tm.toNat = 255 ∧ 0x80 ≤ byteDigit x.tm.toNat 254)) →
        (transact 0x11000000#32 w x).regs.sr = x.sr)
      ∧ (tw ≤ 2016 → (transact 0x11000000#32 w x).regs.sr = x.sr)
      ∧ (tw = 256 → field (transact 0x11000000#32 w x).regs.cb 31 24 ≤ 33)

/-- What `DEC` can leave in `TM`: a mantissa of less than 23 bits followed by zero bytes (40_codec.md R58). -/
def Obligations.ShapeOfADecodedTarget : Prop :=
  ∀ (tw : Nat) (w : Word32) (x : Regs tw), x.sr.fatal ≠ 1 → compactMag x.cb < 2 ^ tw →
    ∃ m d, m < 2 ^ 23 ∧ (transact 0x10000000#32 w x).regs.tm.toNat = m * 256 ^ d

/-- `DEC` then `ENC` gives `CB` back exactly for the canonical words, and for every other word a word that decodes to the
same target (40_codec.md R59). -/
def Obligations.DecThenEncKeepsCanonicalWords : Prop :=
  ∀ (tw : Nat) (w w' : Word32) (x : Regs tw), Config.LegalWidth tw → x.sr.fatal ≠ 1 → compactMag x.cb < 2 ^ tw →
    let y := (transact 0x11000000#32 w' (transact 0x10000000#32 w x).regs).regs
    y.sr.fatal ≠ 1 ∧ (y.cb = x.cb ↔ Canonical x.cb)
      ∧ targetValue (decodeCompact y.cb) = targetValue (decodeCompact x.cb)

/-- `ENC` then `DEC` keeps the sign and the top 3 bytes (the top 2 when the top byte is `0x80` or more) and clears the bytes
below; it never exceeds the magnitude and never overflows; it is exact when those bytes are zero, in particular below `2^23`
(40_codec.md R60). That `ENC` itself does not overflow is the third hypothesis; at 256 bits it never does (R55). -/
def Obligations.EncThenDecTruncates : Prop :=
  (∀ (tw : Nat) (w w' : Word32) (x : Regs tw), x.sr.fatal ≠ 1 → x.tm ≠ 0 →
    (transact 0x11000000#32 w x).regs.sr.fatal ≠ 1 →
    let n := byteLength x.tm.toNat
    let keep := if byteDigit x.tm.toNat (n - 1) < 0x80 then 3 else 2
    let y := (transact 0x10000000#32 w' (transact 0x11000000#32 w x).regs).regs
    y.sr.fatal ≠ 1 ∧ y.ts = x.ts
      ∧ y.tm.toNat = x.tm.toNat - x.tm.toNat % 256 ^ (n - keep)
      ∧ (y.tm = x.tm ↔ x.tm.toNat % 256 ^ (n - keep) = 0)
      ∧ (x.tm.toNat < 2 ^ 23 → y.tm = x.tm))
    ∧ encodeCompact 0 (2 ^ 236 - 1) = some 0x1e0fffff#32
    ∧ (decodeCompact 0x1e0fffff#32).mag = 2 ^ 236 - 2 ^ 216

/-- What `ENC` can write: the exponent is the byte length or one more, the sign is the target's, the mantissa is between
`0x008000` and `0x7fffff` with its low bits zero, so the word is canonical; and `ENC`, `DEC`, `ENC` leaves the word of the
first `ENC` (40_codec.md R61). That `ENC` does not overflow is a hypothesis; at 256 bits it never does (R55). -/
def Obligations.EncWritesCanonicalWords : Prop :=
  ∀ (tw : Nat) (w : Word32) (x : Regs tw), Config.LegalWidth tw → x.sr.fatal ≠ 1 →
    (transact 0x11000000#32 w x).regs.sr.fatal ≠ 1 →
    let y := (transact 0x11000000#32 w x).regs
    let z := (transact 0x11000000#32 w (transact 0x10000000#32 w y).regs).regs
    Canonical y.cb ∧ z.cb = y.cb
      ∧ (x.tm ≠ 0 →
          (field y.cb 31 24 = byteLength x.tm.toNat ∨ field y.cb 31 24 = byteLength x.tm.toNat + 1)
            ∧ 1 ≤ field y.cb 31 24 ∧ field y.cb 31 24 ≤ tw / 8 + 1
            ∧ field y.cb 23 23 = x.ts.toNat
            ∧ 0x008000 ≤ field y.cb 22 0 ∧ field y.cb 22 0 ≤ 0x7fffff
            ∧ field y.cb 22 0 % 2 ^ (8 * (3 - field y.cb 31 24)) = 0)

/-- Sign symmetry of the two functions (40_codec.md R62). -/
def Obligations.SignSymmetryOfTheCodec : Prop :=
  (∀ c : Word32,
      (decodeCompact (c ^^^ 0x00800000#32)).mag = (decodeCompact c).mag
        ∧ ((decodeCompact c).mag ≠ 0 → (decodeCompact (c ^^^ 0x00800000#32)).sign ≠ (decodeCompact c).sign)
        ∧ targetValue (decodeCompact (c ^^^ 0x00800000#32)) = -targetValue (decodeCompact c))
    ∧ ∀ mag : Nat, mag ≠ 0 →
        encodeCompact 1 mag = (encodeCompact 0 mag).map fun c => c + 0x00800000#32

/-- A larger mantissa under the same exponent, or a larger exponent over the same mantissa, never decodes to a smaller
magnitude; and a larger exponent gives a larger magnitude where the smaller one's is not 0. The spec's R64 says "larger"
without the last condition, which R51 needs for exponents below 3: log entry 7. -/
def Obligations.DecodeIsMonotone : Prop :=
  ∀ c d : Word32,
    (field c 31 24 = field d 31 24 → field c 22 0 ≤ field d 22 0 →
        (decodeCompact c).mag ≤ (decodeCompact d).mag)
      ∧ (field c 31 24 < field d 31 24 → field c 22 0 = field d 22 0 →
          (decodeCompact c).mag ≤ (decodeCompact d).mag
            ∧ ((decodeCompact c).mag ≠ 0 → (decodeCompact c).mag < (decodeCompact d).mag))

/- The work family. -/

/-- `WRKT` completes whenever the block is not halted: `WK` takes 0 for a target that is zero or negative, and otherwise the
one `w` with `w * (TM + 1) ≤ 2^256 < (w + 1) * (TM + 1)`; nothing else changes (41_work.md R65, R66, R68, R73). -/
def Obligations.WrktWritesTheWork : Prop :=
  ∀ (s : State), s.regs.sr.fatal ≠ 1 →
    ∃ w, exec .wrkt s = .next { s with regs := { s.regs with wk := w }, rsp := some 0 }
      ∧ (s.regs.ts = 1 ∨ s.regs.tm = 0 → w = 0)
      ∧ (s.regs.ts = 0 → s.regs.tm ≠ 0 →
          w.toNat * (s.regs.tm.toNat + 1) ≤ 2 ^ 256 ∧ 2 ^ 256 < (w.toNat + 1) * (s.regs.tm.toNat + 1))

/-- `WRKC` completes when the block is not halted and the magnitude fits: the target registers take the decoded target,
`WK` its work; nothing else changes (41_work.md R69). -/
def Obligations.WrkcWritesTargetAndWork : Prop :=
  ∀ (s : State), s.regs.sr.fatal ≠ 1 → compactMag s.regs.cb < 2 ^ 256 →
    ∃ w, exec .wrkc s
          = .next { s with
              regs := { s.regs with
                tm := BitVec.ofNat 256 (compactMag s.regs.cb)
                ts := if compactMag s.regs.cb = 0 then 0 else BitVec.ofNat 1 (field s.regs.cb 23 23)
                wk := w }
              rsp := some 0 }
      ∧ (field s.regs.cb 23 23 = 1 ∨ compactMag s.regs.cb = 0 → w = 0)
      ∧ (field s.regs.cb 23 23 = 0 → compactMag s.regs.cb ≠ 0 →
          w.toNat * (compactMag s.regs.cb + 1) ≤ 2 ^ 256 ∧ 2 ^ 256 < (w.toNat + 1) * (compactMag s.regs.cb + 1))

/-- `DIVT` completes when the block is not halted and `HR` is not 0: `TT` takes the one `q` with
`q * HR ≤ WK < (q + 1) * HR`; nothing else changes (41_work.md R70, R71, R74). -/
def Obligations.DivtWritesTheTime : Prop :=
  ∀ (s : State), s.regs.sr.fatal ≠ 1 → s.regs.hr ≠ 0 →
    ∃ q, exec .divt s = .next { s with regs := { s.regs with tt := q }, rsp := some 0 }
      ∧ q.toNat * s.regs.hr.toNat ≤ s.regs.wk.toNat ∧ s.regs.wk.toNat < (q.toNat + 1) * s.regs.hr.toNat

/-- `DIVT` with `HR = 0` raises `DIV_ZERO`, whatever `WK` is, and writes nothing else (41_work.md R71). -/
def Obligations.DivtByZeroFaults : Prop :=
  ∀ (s : State), s.regs.sr.fatal ≠ 1 → s.regs.hr = 0 →
    exec .divt s = .next { s with regs := { s.regs with sr := { fatal := 1, cause := 4 } }, rsp := some 0 }

/-- The range of the work, and that `WRKT` and `WRKC` lose nothing of it at any width (41_work.md R67). -/
def Obligations.WorkIsInRange : Prop :=
  (∀ mag : Nat, 1 ≤ mag →
      workOfTarget 0 mag ≤ 2 ^ 255 ∧ (workOfTarget 0 mag = 2 ^ 255 ↔ mag = 1)
        ∧ (mag ≤ 2 ^ 256 - 1 → 1 ≤ workOfTarget 0 mag) ∧ (2 ^ 256 ≤ mag → workOfTarget 0 mag = 0))
    ∧ (∀ (sign : BitVec 1) (mag : Nat), workOfTarget sign mag ≤ 2 ^ 255)
    ∧ (∀ (tw : Nat) (w : Word32) (x : Regs tw), x.sr.fatal ≠ 1 →
        (transact 0x20000000#32 w x).regs.wk.toNat = workOfTarget x.ts x.tm.toNat
          ∧ (compactMag x.cb < 2 ^ tw → (transact 0x21000000#32 w x).regs.wk.toNat
              = workOfTarget (decodeCompact x.cb).sign (decodeCompact x.cb).mag))

/-- The quotient identity (41_work.md R73). -/
def Obligations.WorkIsTheUniqueQuotient : Prop :=
  ∀ mag w : Nat, 1 ≤ mag →
    (w * (mag + 1) ≤ 2 ^ 256 ∧ 2 ^ 256 < (w + 1) * (mag + 1) ↔ w = workOfTarget 0 mag)

/-- The work does not rise with a positive target, falls strictly while `(t1 + 1) * (t2 + 1) ≤ 2^256`, and is 0 for a target
that is zero or negative; the equal pairs of the rule (41_work.md R72). -/
def Obligations.WorkFallsAsTheTargetRises : Prop :=
  (∀ t₁ t₂ : Nat, 1 ≤ t₁ → t₁ < t₂ →
      workOfTarget 0 t₂ ≤ workOfTarget 0 t₁
        ∧ ((t₁ + 1) * (t₂ + 1) ≤ 2 ^ 256 → workOfTarget 0 t₂ < workOfTarget 0 t₁)
        ∧ (t₂ < 2 ^ 128 - 1 → workOfTarget 0 t₂ < workOfTarget 0 t₁))
    ∧ (∀ t : Target, targetValue t ≤ 0 → workOfTarget t.sign t.mag = 0)
    ∧ workOfTarget 0 (2 ^ 255) = 1 ∧ workOfTarget 0 (2 ^ 255 + 1) = 1
    ∧ targetValue (decodeCompact 0x207fffff#32) ≠ targetValue (decodeCompact 0x207ffffe#32)
    ∧ workOfTarget 0 (decodeCompact 0x207fffff#32).mag = 2
    ∧ workOfTarget 0 (decodeCompact 0x207ffffe#32).mag = 2

/-- `WRKC` leaves the state and gives the responses of `DEC` then `WRKT`, from every state; on overflow `DEC` faults, the
halted block refuses `WRKT`, and `WK` is unchanged in both (41_work.md R75). -/
def Obligations.WrkcIsDecThenWrkt : Prop :=
  ∀ (tw : Nat) (w w₁ w₂ : Word32) (x : Regs tw),
    (transact 0x21000000#32 w x).regs = (transact 0x20000000#32 w₂ (transact 0x10000000#32 w₁ x).regs).regs
      ∧ (transact 0x21000000#32 w x).rdata = (transact 0x10000000#32 w₁ x).rdata
      ∧ (transact 0x21000000#32 w x).rdata
          = (transact 0x20000000#32 w₂ (transact 0x10000000#32 w₁ x).regs).rdata
      ∧ (x.sr.fatal ≠ 1 → 2 ^ tw ≤ compactMag x.cb →
          (transact 0x10000000#32 w₁ x).regs.sr = { fatal := 1, cause := 2 }
            ∧ (transact 0x20000000#32 w₂ (transact 0x10000000#32 w₁ x).regs).regs = (transact 0x10000000#32 w₁ x).regs
            ∧ (transact 0x21000000#32 w x).regs.wk = x.wk)

/- Faults and the halted block. -/

/-- A block that is not halted is halted after a command exactly when the word is illegal, or the command decodes an
overflowing word, or it divides by a zero hash rate, and `SR` then reads the cause (60_exceptions.md R82, R83, R86). -/
def Obligations.WhatHaltsTheBlock : Prop :=
  ∀ (c w : Word32) (x : Regs Config.TW), x.sr.fatal ≠ 1 → x.sr.cause = 0 →
    (IllegalWord Config.TW c → (transact c w x).regs.sr.word = 0x00000011#32)
      ∧ (c = 0x10000000#32 ∨ c = 0x21000000#32 → 2 ^ 256 ≤ compactMag x.cb →
          (transact c w x).regs.sr.word = 0x00000021#32)
      ∧ (c = 0x22000000#32 → x.hr = 0 → (transact c w x).regs.sr.word = 0x00000041#32)
      ∧ (¬IllegalWord Config.TW c → ¬((c = 0x10000000#32 ∨ c = 0x21000000#32) ∧ 2 ^ 256 ≤ compactMag x.cb) →
          ¬(c = 0x22000000#32 ∧ x.hr = 0) → (transact c w x).regs.sr.word = 0x00000000#32)

/-- Faults are precise: a command that halts the block changes no register but `SR` and responds 0, at every width
(60_exceptions.md R84, R85). -/
def Obligations.FaultsArePrecise : Prop :=
  ∀ (tw : Nat) (c w : Word32) (x : Regs tw), x.sr.fatal ≠ 1 → (transact c w x).regs.sr.fatal = 1 →
    ∃ cause, 1 ≤ cause.toNat ∧ cause.toNat ≤ 4
      ∧ transact c w x = { regs := { x with sr := { fatal := 1, cause := cause } }, rdata := 0 }

/-- The halted block: a legal `GET` is executed, every other word changes no register and responds 0; so no list of commands
changes any register (60_exceptions.md R87). -/
def Obligations.HaltedBlockIsFrozen : Prop :=
  ∀ (tw : Nat) (x : Regs tw), x.sr.fatal = 1 →
    (∀ (c w : Word32) (r : Reg) (k : Byte), decodeCommand tw c = .ok (.get r k) →
        transact c w x = { regs := x, rdata := BitVec.ofNat 32 (regValue r x / 2 ^ (32 * k.toNat)) })
      ∧ (∀ c w : Word32, (∀ r k, decodeCommand tw c ≠ .ok (.get r k)) → transact c w x = { regs := x, rdata := 0 })
      ∧ ∀ qs : List Request, (runRequests qs x).1 = x

/-- Every command but `GET` is refused while halted: nothing changes and the response is 0 (60_exceptions.md R87). -/
def Obligations.HaltedCommandsAreRefused : Prop :=
  ∀ (s : State) (i : Instr), s.regs.sr.fatal = 1 → (∀ r k, i ≠ .get r k) → exec i s = .next { s with rsp := some 0 }

/-- A halted machine stays as it is under every input but reset, which clears every register (60_exceptions.md R88,
70_reset_and_hazards.md R94, R95). -/
def Obligations.OnlyResetLeavesTheHalt : Prop :=
  ∀ s t : State, s.regs.sr.fatal = 1 → step s = .next t →
    (t.regs = s.regs ∧ ∀ rest, s.inbox ≠ .reset :: rest)
      ∨ (t.regs = Regs.reset Config.TW ∧ ∃ rest, s.inbox = .reset :: rest)

/-- Who may change a register: `CB` only `PUT` and `ENC`; the target only `PUT`, `DEC` and `WRKC`; `WK` only `WRKT` and
`WRKC`; `HR` only `PUT`; `TT` only `DIVT`; `SR` only fault entry (42_register_access.md R79, 10_state.md R10). -/
def Obligations.WhoMayChangeARegister : Prop :=
  ∀ (tw : Nat) (c w : Word32) (x : Regs tw),
    let y := (transact c w x).regs
    (y.cb ≠ x.cb → opField c = 0x02#8 ∨ c = 0x11000000#32)
      ∧ (y.ts ≠ x.ts ∨ y.tm ≠ x.tm → opField c = 0x02#8 ∨ c = 0x10000000#32 ∨ c = 0x21000000#32)
      ∧ (y.wk ≠ x.wk → c = 0x20000000#32 ∨ c = 0x21000000#32)
      ∧ (y.hr ≠ x.hr → opField c = 0x02#8)
      ∧ (y.tt ≠ x.tt → c = 0x22000000#32)
      ∧ (y.sr ≠ x.sr → x.sr.fatal ≠ 1 ∧ y.sr.fatal = 1)

/- Invariants. -/

/-- `SR.FATAL = 1` if and only if `SR.CAUSE` is not 0: at reset, and in every state a step leaves from a state where it
holds (10_state.md R19). -/
def Obligations.FatalExactlyWithACause : Prop :=
  (State.reset.regs.sr.fatal = 1 ↔ State.reset.regs.sr.cause ≠ 0)
    ∧ (∀ s t : State, (s.regs.sr.fatal = 1 ↔ s.regs.sr.cause ≠ 0) → step s = .next t →
        (t.regs.sr.fatal = 1 ↔ t.regs.sr.cause ≠ 0))
    ∧ ∀ (k : Nat) (inputs : List PortEvent) (t : State),
        Host.Core.run Sys2Proof.core k { State.reset with inbox := inputs } = .next t →
          (t.regs.sr.fatal = 1 ↔ t.regs.sr.cause ≠ 0)

/-- The invariant of the registers holds after reset: `SR` reads one of its five values, `WK` is a work, `TT` a quotient of
one (10_state.md R18, R22). -/
def Obligations.RegistersInvariantAtReset : Prop :=
  RegsInv State.reset.regs

/-- Every step keeps the invariant of the registers: `SR` reads one of its five values, `WK` is the work of some target and
`TT` a quotient of such a work; so both are at most `2^255` (10_state.md R15, R18; 42_register_access.md R79). -/
def Obligations.EveryStepKeepsTheRegistersInvariant : Prop :=
  (∀ s t : State, RegsInv s.regs → step s = .next t → RegsInv t.regs)
    ∧ ∀ x : Regs Config.TW, RegsInv x → x.wk.toNat ≤ 2 ^ 255 ∧ x.tt.toNat ≤ 2 ^ 255

/- Runs, pseudo-instructions, pins. -/

/-- Commands take effect one after the other: a run of two lists is the run of the second from where the first ends, with
the responses in order, one for each command (20_memory.md R34, 70_reset_and_hazards.md R99). -/
def Obligations.RunsCompose : Prop :=
  ∀ (tw : Nat) (a b : List Request) (x : Regs tw),
    runRequests (a ++ b) x
        = ((runRequests b (runRequests a x).1).1, (runRequests a x).2 ++ (runRequests b (runRequests a x).1).2)
      ∧ (runRequests a x).2.length = a.length

/-- The machine's steps over a list of offered commands are the run of 70_reset_and_hazards.md R99: they end in the run's
final registers, the response of each step is the response of the run in its place, and the later inputs of the host are
still to come. The port fields `inbox` and `rsp` are the model's choice (log entry 2). -/
def Obligations.StepsAreTheRun : Prop :=
  ∀ (s : State) (qs : List Request) (rest : List PortEvent),
    s.inbox = qs.map (fun q => PortEvent.command q.cmd q.wdata) ++ rest →
      (∃ t, Host.Core.run Sys2Proof.core qs.length s = .next t ∧ t.regs = (runRequests qs s.regs).1 ∧ t.inbox = rest)
        ∧ (runRequests qs s.regs).2.length = qs.length
        ∧ ∀ k, k < qs.length → ∃ u, Host.Core.run Sys2Proof.core (k + 1) s = .next u
            ∧ u.rsp = (runRequests qs s.regs).2[k]?

/-- `PUTW` of a writable register puts the whole value in it, from a state that is not halted, and changes nothing else; of
`TS` it puts bit 0 (30_encoding.md R50, 42_register_access.md R78). -/
def Obligations.PutwWritesTheWholeRegister : Prop :=
  ∀ (tw : Nat) (imm : Nat) (x : Regs tw), Config.LegalWidth tw → x.sr.fatal ≠ 1 →
    (imm < 2 ^ 32 →
        (∃ qs, assembleLine tw (.putw .cb imm) = some qs ∧ (runRequests qs x).1 = { x with cb := BitVec.ofNat 32 imm })
          ∧ ∃ qs, assembleLine tw (.putw .ts imm) = some qs ∧ (runRequests qs x).1 = { x with ts := BitVec.ofNat 1 imm })
      ∧ (imm < 2 ^ tw →
        ∃ qs, assembleLine tw (.putw .tm imm) = some qs ∧ (runRequests qs x).1 = { x with tm := BitVec.ofNat tw imm })
      ∧ (imm < 2 ^ 256 →
        ∃ qs, assembleLine tw (.putw .hr imm) = some qs ∧ (runRequests qs x).1 = { x with hr := BitVec.ofNat 256 imm })

/-- `GETW` changes nothing, halted or not, and its responses are the limbs of the register's value, lowest first
(30_encoding.md R50, 20_memory.md R25). -/
def Obligations.GetwReadsTheWholeRegister : Prop :=
  ∀ (tw : Nat) (r : Reg) (x : Regs tw), Config.LegalWidth tw →
    ∃ qs, assembleLine tw (.getw r) = some qs ∧ (runRequests qs x).1 = x
      ∧ (runRequests qs x).2.length = r.limbs tw
      ∧ (runRequests qs x).2.foldr (fun v acc => v.toNat + 2 ^ 32 * acc) 0 = regValue r x

/-- The assembler emits legal words only, but for `RAW` (30_encoding.md R49). -/
def Obligations.AssembledWordsAreLegal : Prop :=
  ∀ (tw : Nat) (l : AsmLine) (qs : List Request), Config.LegalWidth tw → assembleLine tw l = some qs →
    (∀ word data, l ≠ .raw word data) → ∀ q ∈ qs, ∃ i, decodeCommand tw q.cmd = .ok i

/-- At the pins a command accepted from the ready state completes after `LAT` edges with the transaction's registers and
response, responds in exactly one cycle, and `cmd_ready` is low from its acceptance until the cycle after the response
(20_memory.md R30, R32), whatever the number of cycles. That the registers change on the last of the edges is the model's
choice (log entry 5). -/
def Obligations.AcceptedCommandsRespondOnce : Prop :=
  ∀ (tw : Nat) (g : Signals tw) (p q : Pins) (ps : List Pins),
    g.phase = .ready → p.rst = false → p.cmdValid = true → q.rst = false → (∀ p' ∈ ps, p'.rst = false) →
      (ps.length ≤ cyclesLeft p.cmd p.wdata g.regs →
          (clockEdges ps (clockEdge p g)).regs = g.regs
            ∧ response (clockEdges ps (clockEdge p g)) = none ∧ cmdReady (clockEdges ps (clockEdge p g)) = false)
        ∧ (ps.length = cyclesLeft p.cmd p.wdata g.regs + 1 →
          (clockEdges ps (clockEdge p g)).regs = (transact p.cmd p.wdata g.regs).regs
            ∧ response (clockEdges ps (clockEdge p g)) = some (transact p.cmd p.wdata g.regs).rdata
            ∧ cmdReady (clockEdges ps (clockEdge p g)) = false
            ∧ response (clockEdge q (clockEdges ps (clockEdge p g))) = none
            ∧ cmdReady (clockEdge q (clockEdges ps (clockEdge p g))) = true
            ∧ (clockEdge q (clockEdges ps (clockEdge p g))).regs = (transact p.cmd p.wdata g.regs).regs)

/-- Reset at the pins wins in every phase: the registers take the reset state on that edge, `cmd_ready`, `rsp_valid` and
`fatal` are low, a command in progress is gone; on the first edge that samples `rst` low `cmd_ready` rises
(20_memory.md R33, 60_exceptions.md R89, R90). -/
def Obligations.ResetPinWins : Prop :=
  ∀ (tw : Nat) (g : Signals tw) (p q : Pins), p.rst = true → q.rst = false →
    (clockEdge p g).regs = Regs.reset tw ∧ cmdReady (clockEdge p g) = false ∧ response (clockEdge p g) = none
      ∧ fatalPin (clockEdge p g) = 0
      ∧ cmdReady (clockEdge q (clockEdge p g)) = true ∧ response (clockEdge q (clockEdge p g)) = none
      ∧ (clockEdge q (clockEdge p g)).regs = Regs.reset tw
end

