-- ==== Sys2Proof/Laws/Codec.lean ====
section
/-! SUPPORT. The arithmetic of the codec: byte lengths, the fields of a compact word as numbers, the range of the mantissa
that `ENC` forms. -/

namespace Sys2Proof.Laws

open Sys2Proof.Machine

@[simp] theorem byteLength_zero : byteLength 0 = 0 := rfl

theorem byteLength_pos {x : Nat} (h : x ≠ 0) : 1 ≤ byteLength x := by
  simp [byteLength, h]

/-- The byte length is long enough: `x < 256^bytelen(x)` (00_scope.md R6). -/
theorem lt_pow_byteLength (x : Nat) : x < 256 ^ byteLength x := by
  by_cases h : x = 0
  · simp [h]
  · have h2 : x < 2 ^ (Nat.log2 x + 1) := Nat.lt_log2_self
    refine h2.trans_le ?_
    rw [show (256 : Nat) = 2 ^ 8 from rfl, ← pow_mul]
    refine Nat.pow_le_pow_right (by norm_num) ?_
    simp only [byteLength, h, if_false]
    omega

/-- The byte length is not too long: `256^(bytelen(x)-1) ≤ x` for `x ≠ 0` (00_scope.md R6). -/
theorem pow_pred_byteLength_le {x : Nat} (h : x ≠ 0) : 256 ^ (byteLength x - 1) ≤ x := by
  have h2 : 2 ^ Nat.log2 x ≤ x := Nat.log2_self_le h
  refine le_trans ?_ h2
  rw [show (256 : Nat) = 2 ^ 8 from rfl, ← pow_mul]
  refine Nat.pow_le_pow_right (by norm_num) ?_
  simp only [byteLength, h, if_false]
  omega

/-- The byte length is the one length whose range holds the number. -/
theorem byteLength_eq {x n : Nat} (hn : 1 ≤ n) (lo : 256 ^ (n - 1) ≤ x) (hi : x < 256 ^ n) : byteLength x = n := by
  have hx : x ≠ 0 := by
    have := Nat.pow_pos (n := n - 1) (show 0 < 256 by norm_num)
    omega
  have h1 := lo.trans_lt (lt_pow_byteLength x)
  have h2 := (pow_pred_byteLength_le hx).trans_lt hi
  have h3 := (Nat.pow_lt_pow_iff_right (show 1 < 256 by norm_num)).1 h1
  have h4 := (Nat.pow_lt_pow_iff_right (show 1 < 256 by norm_num)).1 h2
  omega

theorem exponentField_eq (c : Word32) : exponentField c = c.toNat / 2 ^ 24 := by
  have := c.isLt
  simp [exponentField, BitVec.extractLsb'_toNat, Nat.shiftRight_eq_div_pow]
  omega

theorem signField_toNat (c : Word32) : (signField c).toNat = c.toNat / 2 ^ 23 % 2 := by
  simp [signField, BitVec.extractLsb'_toNat, Nat.shiftRight_eq_div_pow]

theorem mantissaField_eq (c : Word32) : mantissaField c = c.toNat % 2 ^ 23 := by
  simp [mantissaField, BitVec.extractLsb'_toNat]

theorem field_exponent (c : Word32) : field c 31 24 = exponentField c := by
  have := c.isLt
  rw [exponentField_eq]
  simp [field]
  omega

theorem field_sign (c : Word32) : field c 23 23 = (signField c).toNat := by
  rw [signField_toNat]
  simp [field]

theorem field_mantissa (c : Word32) : field c 22 0 = mantissaField c := by
  rw [mantissaField_eq]
  simp [field]

theorem exponentField_lt (c : Word32) : exponentField c < 256 := by
  have := c.isLt
  rw [exponentField_eq]
  omega

theorem mantissaField_lt (c : Word32) : mantissaField c < 2 ^ 23 := by
  rw [mantissaField_eq]
  omega

/-- The decoded magnitude in the arithmetic of 40_codec.md R51. -/
theorem decodedMag_eq_compactMag (c : Word32) : decodedMag c = compactMag c := by
  unfold decodedMag compactMag
  rw [field_exponent, field_mantissa, Nat.shiftRight_eq_div_pow, Nat.shiftLeft_eq,
    show (256 : Nat) = 2 ^ 8 from rfl, ← pow_mul, ← pow_mul]

/-- A compact word as a number, from the three fields it is made of. -/
theorem toNat_pack (e : BitVec 8) (s : BitVec 1) (m : BitVec 23) :
    (show Word32 from e ++ s ++ m).toNat = e.toNat * 2 ^ 24 + s.toNat * 2 ^ 23 + m.toNat := by
  have h : (show Word32 from e ++ s ++ m).toNat = (e.toNat <<< 1 ||| s.toNat) <<< 23 ||| m.toNat :=
    (BitVec.toNat_append (e ++ s) m).trans (by rw [BitVec.toNat_append])
  have := e.isLt
  have := s.isLt
  have := m.isLt
  rw [h, ← Nat.shiftLeft_add_eq_or_of_lt (by omega), ← Nat.shiftLeft_add_eq_or_of_lt (by omega)]
  simp only [Nat.shiftLeft_eq]
  omega

theorem exponentField_pack (e : BitVec 8) (s : BitVec 1) (m : BitVec 23) : exponentField (e ++ s ++ m) = e.toNat := by
  have := e.isLt
  have := s.isLt
  have := m.isLt
  have h := toNat_pack e s m
  rw [exponentField_eq]
  simp only at h
  omega

theorem signField_pack (e : BitVec 8) (s : BitVec 1) (m : BitVec 23) : signField (e ++ s ++ m) = s := by
  have := e.isLt
  have := s.isLt
  have := m.isLt
  have h := toNat_pack e s m
  apply BitVec.eq_of_toNat_eq
  rw [signField_toNat]
  simp only at h
  omega

theorem mantissaField_pack (e : BitVec 8) (s : BitVec 1) (m : BitVec 23) : mantissaField (e ++ s ++ m) = m.toNat := by
  have := e.isLt
  have := s.isLt
  have := m.isLt
  have h := toNat_pack e s m
  rw [mantissaField_eq]
  simp only at h
  omega

/-- Two compact words with the same fields are the same word. -/
theorem compact_ext {c d : Word32} (he : exponentField c = exponentField d) (hs : signField c = signField d)
    (hm : mantissaField c = mantissaField d) : c = d := by
  have hs := congrArg BitVec.toNat hs
  rw [signField_toNat, signField_toNat] at hs
  rw [exponentField_eq, exponentField_eq] at he
  rw [mantissaField_eq, mantissaField_eq] at hm
  apply BitVec.eq_of_toNat_eq
  omega

/-- The three-byte window in the arithmetic of 40_codec.md R54. -/
theorem topThreeBytes_eq (x : Nat) :
    topThreeBytes x = if byteLength x ≤ 3 then x * 256 ^ (3 - byteLength x) else x / 256 ^ (byteLength x - 3) := by
  unfold topThreeBytes
  rw [Nat.shiftRight_eq_div_pow, Nat.shiftLeft_eq, show (256 : Nat) = 2 ^ 8 from rfl, ← pow_mul, ← pow_mul]

/-- The range of the window of a non-zero magnitude (40_codec.md R54). -/
theorem topThreeBytes_range {x : Nat} (h : x ≠ 0) : 256 ^ 2 ≤ topThreeBytes x ∧ topThreeBytes x < 256 ^ 3 := by
  have lo := pow_pred_byteLength_le h
  have hi := lt_pow_byteLength x
  have hp := byteLength_pos h
  rw [topThreeBytes_eq]
  generalize byteLength x = n at *
  split
  · rename_i hn
    constructor
    · calc 256 ^ 2 = 256 ^ (n - 1) * 256 ^ (3 - n) := by rw [← pow_add]; congr 1; omega
        _ ≤ x * 256 ^ (3 - n) := Nat.mul_le_mul_right _ lo
    · calc x * 256 ^ (3 - n) < 256 ^ n * 256 ^ (3 - n) := Nat.mul_lt_mul_of_pos_right hi (by positivity)
        _ = 256 ^ 3 := by rw [← pow_add]; congr 1; omega
  · rename_i hn
    constructor
    · rw [Nat.le_div_iff_mul_le (by positivity), ← pow_add]
      exact le_trans (le_of_eq (by congr 1; omega)) lo
    · rw [Nat.div_lt_iff_lt_mul (by positivity), ← pow_add]
      exact lt_of_lt_of_le hi (le_of_eq (by congr 1; omega))

/-- When the fix-up fires (40_codec.md R54). -/
theorem needsFixUp_iff {x : Nat} (h : x ≠ 0) : needsFixUp x = true ↔ 2 ^ 23 ≤ topThreeBytes x := by
  have hr := (topThreeBytes_range h).2
  unfold needsFixUp
  rw [Nat.testBit_eq_decide_div_mod_eq]
  simp only [decide_eq_true_eq]
  omega

/-- The range of the mantissa `ENC` forms: it fits its 23 bits and never starts with a zero byte it could do without
(40_codec.md R54, R61). -/
theorem packedMantissa_range {x : Nat} (h : x ≠ 0) : 0x008000 ≤ packedMantissa x ∧ packedMantissa x < 2 ^ 23 := by
  have hr := topThreeBytes_range h
  unfold packedMantissa
  split
  · rename_i hf
    have := (needsFixUp_iff h).1 hf
    rw [Nat.shiftRight_eq_div_pow]
    omega
  · rename_i hf
    have := mt (needsFixUp_iff h).2 hf
    omega

theorem packedExponent_bounds (x : Nat) : byteLength x ≤ packedExponent x ∧ packedExponent x ≤ byteLength x + 1 := by
  unfold packedExponent
  split <;> omega

/-- What `encode` answers for a non-zero magnitude whose exponent fits (40_codec.md R54). -/
theorem encodeCompact_some {s : BitVec 1} {x : Nat} (h : x ≠ 0) (he : packedExponent x ≤ 255) :
    ∃ c, encodeCompact s x = some c ∧ exponentField c = packedExponent x ∧ signField c = s
      ∧ mantissaField c = packedMantissa x := by
  have hm := packedMantissa_range h
  refine ⟨_, by rw [encodeCompact, if_neg h, if_neg (by omega)], ?_, signField_pack _ _ _, ?_⟩
  · rw [exponentField_pack, BitVec.toNat_ofNat]
    omega
  · rw [mantissaField_pack, BitVec.toNat_ofNat]
    omega

/-- The exponent `ENC` forms for a magnitude of at most `n` bytes (40_codec.md R55). -/
theorem packedExponent_le_of_lt {x n : Nat} (hx : x < 256 ^ n) : packedExponent x ≤ n + 1 := by
  have h := (packedExponent_bounds x).2
  by_cases h0 : x = 0
  · subst h0
    simp at h
    omega
  · have := (pow_pred_byteLength_le h0).trans_lt hx
    have := (Nat.pow_lt_pow_iff_right (show 1 < 256 by norm_num)).1 this
    omega

end Sys2Proof.Laws
end

