-- ==== Sys2Proof/Laws/Operands.lean ====
section
/-! SUPPORT. Limbs: what a limb reads, bit by bit and as a number, and what replacing one leaves. -/

namespace Sys2Proof.Laws

open Sys2Proof.Machine

variable {w : Nat}

/-- Bit `i` of limb `k` is bit `32*k + i` (20_memory.md R25). -/
theorem getLsbD_limb (x : BitVec w) (k i : Nat) :
    (limb x k).getLsbD i = (decide (i < 32) && x.getLsbD (32 * k + i)) := by
  simp [limb, Config.LIMB, BitVec.getLsbD_extractLsb']

/-- A limb as a number (00_scope.md R5, R6). -/
theorem limb_toNat (x : BitVec w) (k : Nat) : (limb x k).toNat = x.toNat / 2 ^ (32 * k) % 2 ^ 32 := by
  simp [limb, Config.LIMB, BitVec.extractLsb'_toNat, Nat.shiftRight_eq_div_pow]

theorem getLsbD_limbMask (k i : Nat) :
    (limbMask w k).getLsbD i = decide (i < w ∧ 32 * k ≤ i ∧ i < 32 * k + 32) := by
  rw [Bool.eq_iff_iff]
  simp only [limbMask, Config.LIMB, BitVec.getLsbD_shiftLeft, BitVec.getLsbD_setWidth, BitVec.getLsbD_allOnes,
    Bool.and_eq_true, Bool.not_eq_true', decide_eq_true_eq, decide_eq_false_iff_not]
  omega

/-- Replacing a limb replaces its bits and no other (00_scope.md R7). -/
theorem getLsbD_setLimb (x : BitVec w) (k : Nat) (v : Word32) (i : Nat) :
    (setLimb x k v).getLsbD i
      = if i < w ∧ 32 * k ≤ i ∧ i < 32 * k + 32 then v.getLsbD (i - 32 * k) else x.getLsbD i := by
  have hx : w ≤ i → x.getLsbD i = false := BitVec.getLsbD_of_ge x i
  have hv : 32 * k + 32 ≤ i → v.getLsbD (i - 32 * k) = false := fun h => BitVec.getLsbD_of_ge v _ (by omega)
  simp only [setLimb, Config.LIMB, BitVec.getLsbD_or, BitVec.getLsbD_and, BitVec.getLsbD_not, getLsbD_limbMask,
    BitVec.getLsbD_shiftLeft, BitVec.getLsbD_setWidth]
  by_cases h1 : i < w
  · by_cases h2 : 32 * k ≤ i
    · by_cases h3 : i < 32 * k + 32
      · simp only [h1, h2, h3, and_self, if_true, show ¬i < 32 * k by omega, show i - 32 * k < w by omega]
        cases x.getLsbD i <;> cases v.getLsbD (i - 32 * k) <;> decide
      · simp only [h1, h2, h3, and_false, if_false, hv (by omega)]
        cases x.getLsbD i <;> simp
    · simp only [h1, h2, false_and, and_false, if_false, show i < 32 * k by omega]
      cases x.getLsbD i <;> simp
  · simp only [h1, false_and, if_false, hx (by omega)]
    simp

/-- A limb that lies in the register reads what was put in it. -/
theorem limb_setLimb_same (x : BitVec w) (k : Nat) (v : Word32) (h : 32 * k + 32 ≤ w) :
    limb (setLimb x k v) k = v := by
  apply BitVec.eq_of_getLsbD_eq
  intro i hi
  rw [getLsbD_limb, getLsbD_setLimb, if_pos (by omega)]
  simp [hi]

/-- The other limbs read as before. -/
theorem limb_setLimb_of_ne (x : BitVec w) {k j : Nat} (v : Word32) (h : j ≠ k) :
    limb (setLimb x k v) j = limb x j := by
  apply BitVec.eq_of_getLsbD_eq
  intro i hi
  rw [getLsbD_limb, getLsbD_limb, getLsbD_setLimb, if_neg (by omega)]

/-- Replacing a limb twice with the same word is replacing it once (20_memory.md R28). -/
theorem setLimb_setLimb (x : BitVec w) (k : Nat) (v : Word32) : setLimb (setLimb x k v) k v = setLimb x k v := by
  apply BitVec.eq_of_getLsbD_eq
  intro i _
  rw [getLsbD_setLimb, getLsbD_setLimb]
  split <;> rfl

/-- The only limb of a 32-bit register is the register. -/
@[simp] theorem limb_zero_of_word (x : Word32) : limb x 0 = x := by
  apply BitVec.eq_of_getLsbD_eq
  intro i hi
  rw [getLsbD_limb]
  simp [hi]

@[simp] theorem setLimb_zero_of_word (x v : Word32) : setLimb x 0 v = v := by
  apply BitVec.eq_of_getLsbD_eq
  intro i hi
  rw [getLsbD_setLimb, if_pos (by omega)]
  simp

/-- Registers whose limbs agree are equal (20_memory.md R25). -/
theorem eq_of_limbs {x y : BitVec w} (h : ∀ k, 32 * k < w → limb x k = limb y k) : x = y := by
  apply BitVec.eq_of_getLsbD_eq
  intro i hi
  have := congrArg (fun v => v.getLsbD (i % 32)) (h (i / 32) (by omega))
  simp only [getLsbD_limb] at this
  rw [show 32 * (i / 32) + i % 32 = i by omega] at this
  simpa [show i % 32 < 32 by omega] using this

end Sys2Proof.Laws
end

