-- ==== Sys2Proof/Laws/State.lean ====
section
/-! SUPPORT. One lemma per field per named update, each true by `rfl`, so that no proof unfolds a record update. -/

namespace Sys2Proof.Laws

open Sys2Proof.Machine

variable {tw : Nat} (v : Word32) (x : Regs tw) (c : Cause) (t : Target)
variable (s : State) (a : Reply Config.TW) (rest : List PortEvent)

@[simp] theorem respond_regs : (respond v x).regs = x := rfl
@[simp] theorem respond_rdata : (respond v x).rdata = v := rfl
@[simp] theorem refuse_regs : (refuse x).regs = x := rfl
@[simp] theorem refuse_rdata : (refuse x).rdata = 0 := rfl

@[simp] theorem raiseFatal_rdata : (raiseFatal c x).rdata = 0 := rfl
@[simp] theorem raiseFatal_regs : (raiseFatal c x).regs = { x with sr := { fatal := 1, cause := c.code } } := rfl
@[simp] theorem raiseFatal_cb : (raiseFatal c x).regs.cb = x.cb := rfl
@[simp] theorem raiseFatal_ts : (raiseFatal c x).regs.ts = x.ts := rfl
@[simp] theorem raiseFatal_tm : (raiseFatal c x).regs.tm = x.tm := rfl
@[simp] theorem raiseFatal_wk : (raiseFatal c x).regs.wk = x.wk := rfl
@[simp] theorem raiseFatal_hr : (raiseFatal c x).regs.hr = x.hr := rfl
@[simp] theorem raiseFatal_tt : (raiseFatal c x).regs.tt = x.tt := rfl
@[simp] theorem raiseFatal_sr : (raiseFatal c x).regs.sr = { fatal := 1, cause := c.code } := rfl

@[simp] theorem writeTarget_cb : (writeTarget t x).cb = x.cb := rfl
@[simp] theorem writeTarget_ts : (writeTarget t x).ts = if t.mag = 0 then 0 else t.sign := rfl
@[simp] theorem writeTarget_tm : (writeTarget t x).tm = BitVec.ofNat tw t.mag := rfl
@[simp] theorem writeTarget_wk : (writeTarget t x).wk = x.wk := rfl
@[simp] theorem writeTarget_hr : (writeTarget t x).hr = x.hr := rfl
@[simp] theorem writeTarget_tt : (writeTarget t x).tt = x.tt := rfl
@[simp] theorem writeTarget_sr : (writeTarget t x).sr = x.sr := rfl

@[simp] theorem writeWork_cb : (writeWork x).cb = x.cb := rfl
@[simp] theorem writeWork_ts : (writeWork x).ts = x.ts := rfl
@[simp] theorem writeWork_tm : (writeWork x).tm = x.tm := rfl
@[simp] theorem writeWork_wk : (writeWork x).wk = BitVec.ofNat Config.WW (workOfTarget x.ts x.tm.toNat) := rfl
@[simp] theorem writeWork_hr : (writeWork x).hr = x.hr := rfl
@[simp] theorem writeWork_tt : (writeWork x).tt = x.tt := rfl
@[simp] theorem writeWork_sr : (writeWork x).sr = x.sr := rfl

@[simp] theorem decodeCompact_sign (w : Word32) : (decodeCompact w).sign = signField w := rfl
@[simp] theorem decodeCompact_mag (w : Word32) : (decodeCompact w).mag = decodedMag w := rfl

@[simp] theorem settle_regs : (settle s a).regs = a.regs := rfl
@[simp] theorem settle_inbox : (settle s a).inbox = s.inbox := rfl
@[simp] theorem settle_wdata : (settle s a).wdata = s.wdata := rfl
@[simp] theorem settle_rsp : (settle s a).rsp = some a.rdata := rfl

@[simp] theorem idle_regs : (idle s).regs = s.regs := rfl
@[simp] theorem idle_inbox : (idle s).inbox = s.inbox := rfl
@[simp] theorem idle_wdata : (idle s).wdata = s.wdata := rfl
@[simp] theorem idle_rsp : (idle s).rsp = none := rfl

@[simp] theorem accept_regs : (accept v rest s).regs = s.regs := rfl
@[simp] theorem accept_inbox : (accept v rest s).inbox = rest := rfl
@[simp] theorem accept_wdata : (accept v rest s).wdata = v := rfl
@[simp] theorem accept_rsp : (accept v rest s).rsp = s.rsp := rfl

@[simp] theorem takeReset_regs : (takeReset rest).regs = Regs.reset Config.TW := rfl
@[simp] theorem takeReset_inbox : (takeReset rest).inbox = rest := rfl
@[simp] theorem takeReset_wdata : (takeReset rest).wdata = 0 := rfl
@[simp] theorem takeReset_rsp : (takeReset rest).rsp = none := rfl

@[simp] theorem reset_regs : State.reset.regs = Regs.reset Config.TW := rfl
@[simp] theorem reset_inbox : State.reset.inbox = [] := rfl
@[simp] theorem reset_wdata : State.reset.wdata = 0 := rfl
@[simp] theorem reset_rsp : State.reset.rsp = none := rfl

@[simp] theorem regsReset_cb : (Regs.reset tw).cb = 0 := rfl
@[simp] theorem regsReset_ts : (Regs.reset tw).ts = 0 := rfl
@[simp] theorem regsReset_tm : (Regs.reset tw).tm = 0 := rfl
@[simp] theorem regsReset_wk : (Regs.reset tw).wk = 0 := rfl
@[simp] theorem regsReset_hr : (Regs.reset tw).hr = 0 := rfl
@[simp] theorem regsReset_tt : (Regs.reset tw).tt = 0 := rfl
@[simp] theorem regsReset_fatal : (Regs.reset tw).sr.fatal = 0 := rfl
@[simp] theorem regsReset_cause : (Regs.reset tw).sr.cause = 0 := rfl

@[simp] theorem withFetchWord_regs (n w : Nat) : (s.withFetchWord n w).regs = s.regs := rfl
@[simp] theorem withFetchWord_wdata (n w : Nat) : (s.withFetchWord n w).wdata = s.wdata := rfl
@[simp] theorem withFetchWord_rsp (n w : Nat) : (s.withFetchWord n w).rsp = s.rsp := rfl
@[simp] theorem withFetchWord_inbox (n w : Nat) :
    (s.withFetchWord n w).inbox = .command (commandWordOf n w) s.wdata :: s.inbox := rfl

end Sys2Proof.Laws
end

