-- ==== Sys2Proof/Laws/Ops.lean ====
section
/-! SUPPORT. What each command can do, said once: the cases a meaning ends in, and that a meaning on the machine is the
reply on the registers. Proofs cite these and do not unfold a meaning. -/

namespace Sys2Proof.Laws

open Sys2Proof.Machine

variable {tw : Nat} (x : Regs tw)

/-- The bit `FATAL` is 0 when it is not 1. -/
theorem fatal_eq_zero {x : Regs tw} (h : x.sr.fatal ≠ 1) : x.sr.fatal = 0 := by
  revert h
  generalize x.sr.fatal = b
  revert b
  decide

theorem illegalCommand_cases :
    (x.sr.fatal = 1 ∧ illegalCommand x = refuse x)
      ∨ (x.sr.fatal ≠ 1 ∧ illegalCommand x = raiseFatal .illegalCmd x) := by
  unfold illegalCommand
  split
  · exact .inl ⟨by assumption, rfl⟩
  · exact .inr ⟨by assumption, rfl⟩

/-- `GET`: the limb, or the illegal command when the address is not valid (42_register_access.md R77). -/
theorem getReply_cases (r : Reg) (k : Byte) :
    (ValidAddress tw r k ∧ getReply r k x = respond (regRead r k x) x)
      ∨ (¬ValidAddress tw r k ∧ getReply r k x = illegalCommand x) := by
  unfold getReply
  split
  · exact .inl ⟨by assumption, rfl⟩
  · exact .inr ⟨by assumption, rfl⟩

/-- `PUT`: refused, the limb written, or the illegal command (42_register_access.md R78). -/
theorem putReply_cases (r : Reg) (k : Byte) (w : Word32) :
    (x.sr.fatal = 1 ∧ putReply r k w x = refuse x)
      ∨ (x.sr.fatal ≠ 1 ∧ ValidAddress tw r k ∧ r.hostWritable = true
          ∧ putReply r k w x = respond 0 (regWrite r k w x))
      ∨ (x.sr.fatal ≠ 1 ∧ ¬(ValidAddress tw r k ∧ r.hostWritable = true)
          ∧ putReply r k w x = raiseFatal .illegalCmd x) := by
  unfold putReply
  split
  · exact .inl ⟨by assumption, rfl⟩
  · rename_i hf
    split
    · rename_i h
      exact .inr (.inl ⟨hf, h.1, h.2, rfl⟩)
    · rename_i h
      exact .inr (.inr ⟨hf, h, if_neg hf⟩)

/-- `DEC`: refused, `DEC_OVERFLOW`, or the target written (40_codec.md R56). -/
theorem decReply_cases :
    (x.sr.fatal = 1 ∧ decReply x = refuse x)
      ∨ (x.sr.fatal ≠ 1 ∧ 2 ^ tw ≤ decodedMag x.cb ∧ decReply x = raiseFatal .decOverflow x)
      ∨ (x.sr.fatal ≠ 1 ∧ decodedMag x.cb < 2 ^ tw
          ∧ decReply x = respond 0 (writeTarget (decodeCompact x.cb) x)) := by
  unfold decReply
  split
  · exact .inl ⟨by assumption, rfl⟩
  · rename_i hf
    split
    · exact .inr (.inl ⟨hf, by assumption, rfl⟩)
    · rename_i h
      exact .inr (.inr ⟨hf, Nat.lt_of_not_le h, rfl⟩)

/-- `ENC`: refused, `ENC_OVERFLOW`, or `CB` written (40_codec.md R57). -/
theorem encReply_cases :
    (x.sr.fatal = 1 ∧ encReply x = refuse x)
      ∨ (x.sr.fatal ≠ 1 ∧ encodeCompact x.ts x.tm.toNat = none ∧ encReply x = raiseFatal .encOverflow x)
      ∨ (x.sr.fatal ≠ 1 ∧ ∃ c, encodeCompact x.ts x.tm.toNat = some c
          ∧ encReply x = respond 0 { x with cb := c }) := by
  unfold encReply
  split
  · exact .inl ⟨by assumption, rfl⟩
  · rename_i hf
    split
    · exact .inr (.inl ⟨hf, by assumption, rfl⟩)
    · exact .inr (.inr ⟨hf, _, by assumption, rfl⟩)

/-- `WRKT`: refused, or `WK` written (41_work.md R68). -/
theorem wrktReply_cases :
    (x.sr.fatal = 1 ∧ wrktReply x = refuse x) ∨ (x.sr.fatal ≠ 1 ∧ wrktReply x = respond 0 (writeWork x)) := by
  unfold wrktReply
  split
  · exact .inl ⟨by assumption, rfl⟩
  · exact .inr ⟨by assumption, rfl⟩

/-- `WRKC`: refused, `DEC_OVERFLOW`, or the target and the work written (41_work.md R69). -/
theorem wrkcReply_cases :
    (x.sr.fatal = 1 ∧ wrkcReply x = refuse x)
      ∨ (x.sr.fatal ≠ 1 ∧ 2 ^ tw ≤ decodedMag x.cb ∧ wrkcReply x = raiseFatal .decOverflow x)
      ∨ (x.sr.fatal ≠ 1 ∧ decodedMag x.cb < 2 ^ tw
          ∧ wrkcReply x = respond 0 (writeWork (writeTarget (decodeCompact x.cb) x))) := by
  unfold wrkcReply
  split
  · exact .inl ⟨by assumption, rfl⟩
  · rename_i hf
    split
    · exact .inr (.inl ⟨hf, by assumption, rfl⟩)
    · rename_i h
      exact .inr (.inr ⟨hf, Nat.lt_of_not_le h, rfl⟩)

/-- `DIVT`: refused, `DIV_ZERO`, or `TT` written (41_work.md R71). -/
theorem divtReply_cases :
    (x.sr.fatal = 1 ∧ divtReply x = refuse x)
      ∨ (x.sr.fatal ≠ 1 ∧ x.hr = 0 ∧ divtReply x = raiseFatal .divZero x)
      ∨ (x.sr.fatal ≠ 1 ∧ x.hr ≠ 0
          ∧ divtReply x = respond 0 { x with tt := BitVec.ofNat Config.QW (divTime x.wk.toNat x.hr.toNat) }) := by
  unfold divtReply
  split
  · exact .inl ⟨by assumption, rfl⟩
  · rename_i hf
    split
    · exact .inr (.inl ⟨hf, by assumption, rfl⟩)
    · exact .inr (.inr ⟨hf, by assumption, rfl⟩)

/-- Every command on the machine is its reply on the registers, and never a stop (00_scope.md R8). -/
theorem exec_eq_finish (i : Instr) (s : State) : exec i s = finish s (commandReply i s.wdata s.regs) := by
  cases i <;> rfl

/-- An accepted word on the machine is the transaction on the registers (00_scope.md R8). -/
theorem runWord_eq_finish (c : Word32) (s : State) : runWord c s = finish s (transact c s.wdata s.regs) := by
  unfold runWord transact
  cases decodeCommand Config.TW c with
  | ok i => exact exec_eq_finish i s
  | error e => rfl

/-- A word that decodes makes the transaction of its command. -/
theorem transact_of_ok {c : Word32} {i : Instr} (w : Word32) (h : decodeCommand tw c = .ok i) :
    transact c w x = commandReply i w x := by
  simp only [transact, h]

/-- A word that does not decode makes the transaction of the illegal command. -/
theorem transact_of_error {c : Word32} {e : Illegal} (w : Word32) (h : decodeCommand tw c = .error e) :
    transact c w x = illegalCommand x := by
  simp only [transact, h]

variable (w : Word32)

theorem transact_dec : transact 0x10000000#32 w x = decReply x := rfl
theorem transact_enc : transact 0x11000000#32 w x = encReply x := rfl
theorem transact_wrkt : transact 0x20000000#32 w x = wrktReply x := rfl
theorem transact_wrkc : transact 0x21000000#32 w x = wrkcReply x := rfl
theorem transact_divt : transact 0x22000000#32 w x = divtReply x := rfl

end Sys2Proof.Laws
end

