-- ==== Sys2Proof/Laws/Words.lean ====
section
/-! SUPPORT. The fields of a command word, of the words the encoder writes, and the tables of opcodes and register ids. -/

namespace Sys2Proof.Laws

variable (op : Opcode) (r : Reg) (k : Byte) (c : Word32)

/-- A word of four bytes as a number. -/
theorem toNat_fourBytes (a b c d : Byte) :
    (show Word32 from a ++ b ++ c ++ d).toNat
      = a.toNat * 2 ^ 24 + b.toNat * 2 ^ 16 + c.toNat * 2 ^ 8 + d.toNat := by
  have h : (show Word32 from a ++ b ++ c ++ d).toNat
      = ((a.toNat <<< 8 ||| b.toNat) <<< 8 ||| c.toNat) <<< 8 ||| d.toNat :=
    (BitVec.toNat_append (a ++ b ++ c) d).trans (by rw [BitVec.toNat_append, BitVec.toNat_append])
  have := a.isLt
  have := b.isLt
  have := c.isLt
  have := d.isLt
  rw [h, ← Nat.shiftLeft_add_eq_or_of_lt (by omega), ← Nat.shiftLeft_add_eq_or_of_lt (by omega),
    ← Nat.shiftLeft_add_eq_or_of_lt (by omega)]
  simp only [Nat.shiftLeft_eq]
  omega

theorem toNat_wordM :
    (wordM op r k).toNat = op.byte.toNat * 2 ^ 24 + r.id.toNat * 2 ^ 16 + k.toNat * 2 ^ 8 := by
  exact (toNat_fourBytes op.byte r.id k 0x00#8).trans (by simp)

theorem opField_toNat : (opField c).toNat = c.toNat / 2 ^ 24 := by
  have := c.isLt
  simp [opField, BitVec.extractLsb'_toNat, Nat.shiftRight_eq_div_pow]
  omega

theorem regField_toNat : (regField c).toNat = c.toNat / 2 ^ 16 % 2 ^ 8 := by
  simp [regField, BitVec.extractLsb'_toNat, Nat.shiftRight_eq_div_pow]

theorem limbField_toNat : (limbField c).toNat = c.toNat / 2 ^ 8 % 2 ^ 8 := by
  simp [limbField, BitVec.extractLsb'_toNat, Nat.shiftRight_eq_div_pow]

theorem reservedM_toNat : (reservedM c).toNat = c.toNat % 2 ^ 8 := by
  simp [reservedM, BitVec.extractLsb'_toNat]

theorem reservedC_toNat : (reservedC c).toNat = c.toNat % 2 ^ 24 := by
  simp [reservedC, BitVec.extractLsb'_toNat]

@[simp] theorem opField_wordM : opField (wordM op r k) = op.byte := by
  apply BitVec.eq_of_toNat_eq
  rw [opField_toNat, toNat_wordM]
  omega

@[simp] theorem regField_wordM : regField (wordM op r k) = r.id := by
  apply BitVec.eq_of_toNat_eq
  rw [regField_toNat, toNat_wordM]
  omega

@[simp] theorem limbField_wordM : limbField (wordM op r k) = k := by
  apply BitVec.eq_of_toNat_eq
  rw [limbField_toNat, toNat_wordM]
  omega

@[simp] theorem reservedM_wordM : reservedM (wordM op r k) = 0 := by
  apply BitVec.eq_of_toNat_eq
  rw [reservedM_toNat, toNat_wordM]
  simp
  omega

@[simp] theorem opField_wordC : opField (wordC op) = op.byte := by
  cases op <;> rfl

@[simp] theorem reservedC_wordC : reservedC (wordC op) = 0 := by
  cases op <;> rfl

@[simp] theorem opcodeOf_byte : opcodeOf op.byte = some op := by
  cases op <;> rfl

@[simp] theorem regOf_id : regOf r.id = some r := by
  cases r <;> rfl

/-- An opcode byte is the one of the opcode it stands for. -/
theorem byte_of_opcodeOf {b : Byte} {op : Opcode} (h : opcodeOf b = some op) : op.byte = b := by
  unfold opcodeOf at h
  repeat' split at h
  all_goals simp_all [Opcode.byte]
  all_goals (subst h; rfl)

/-- A register id byte is the one of the register it names. -/
theorem id_of_regOf {b : Byte} {r : Reg} (h : regOf b = some r) : r.id = b := by
  unfold regOf at h
  repeat' split at h
  all_goals simp_all [Reg.id]
  all_goals (subst h; rfl)

/-- The four fields of format M are the whole word. -/
theorem word_of_fieldsM (h : reservedM c = 0) : opField c ++ regField c ++ limbField c ++ 0x00#8 = c := by
  apply BitVec.eq_of_toNat_eq
  have hz := reservedM_toNat c
  rw [h] at hz
  refine (toNat_fourBytes (opField c) (regField c) (limbField c) 0x00#8).trans ?_
  rw [opField_toNat, regField_toNat, limbField_toNat]
  simp at *
  omega

/-- The two fields of format C are the whole word. -/
theorem word_of_fieldsC (h : reservedC c = 0) : opField c ++ 0x000000#24 = c := by
  apply BitVec.eq_of_toNat_eq
  have hz := reservedC_toNat c
  rw [h] at hz
  refine (BitVec.toNat_append (opField c) 0x000000#24).trans ?_
  rw [opField_toNat]
  simp [Nat.shiftLeft_eq] at *
  omega

/-- When the decoder of format M accepts, the word is that of the register and index it answers, which are a valid
address. -/
theorem decodeM_ok {tw : Nat} {c : Word32} {r : Reg} {k : Byte} (h : decodeM tw c = .ok (r, k)) :
    reservedM c = 0 ∧ regField c = r.id ∧ limbField c = k ∧ ValidAddress tw r k := by
  unfold decodeM at h
  split at h
  · cases h
  · rename_i hz
    split at h
    · cases h
    · rename_i r' hr
      split at h
      · rename_i hv
        cases h
        exact ⟨not_not.mp hz, (id_of_regOf hr).symm, rfl, hv⟩
      · cases h

/-- When the decoder of format C accepts, its reserved bits are zero and the command is the one of the opcode. -/
theorem decodeC_ok {i j : Instr} {c : Word32} (h : decodeC i c = .ok j) : reservedC c = 0 ∧ j = i := by
  unfold decodeC at h
  split at h
  · rename_i hz
    cases h
    exact ⟨hz, rfl⟩
  · cases h

end Sys2Proof.Laws
end

