-- ==== Sys2Proof/Laws/PerInstr.lean ====
section
/-! SUPPORT. Statements about every command as syntax, made constructor by constructor. Family `TableRow`: the word a
command encodes to has the fixed bits of its row of spec/opcode_table.json. -/

namespace Sys2Proof.Laws.TableRow

/-- The "fixed" bits of a command's row of spec/opcode_table.json: bits 31:24 and 7:0 of a format M row, all bits of a
format C row. -/
def Statement (i : Instr) : Prop :=
  match i with
  | .get _ _ => opField (encode i) = 1 ∧ reservedM (encode i) = 0
  | .put _ _ => opField (encode i) = 2 ∧ reservedM (encode i) = 0
  | .dec => encode i = 0x10000000#32
  | .enc => encode i = 0x11000000#32
  | .wrkt => encode i = 0x20000000#32
  | .wrkc => encode i = 0x21000000#32
  | .divt => encode i = 0x22000000#32

theorem get (r : Reg) (k : Byte) : Statement (.get r k) := ⟨opField_wordM .get r k, reservedM_wordM .get r k⟩
theorem put (r : Reg) (k : Byte) : Statement (.put r k) := ⟨opField_wordM .put r k, reservedM_wordM .put r k⟩
theorem dec : Statement .dec := rfl
theorem enc : Statement .enc := rfl
theorem wrkt : Statement .wrkt := rfl
theorem wrkc : Statement .wrkc := rfl
theorem divt : Statement .divt := rfl

end Sys2Proof.Laws.TableRow
end

