-- ==== Sys2Proof/Tests/Slice0.lean ====
section
/-! SUPPORT. The author's tests: the well-formedness checks, one word of every command and every kind of illegal word
written out from 30_encoding.md, vectors of 95_test_vectors.md, and for every statement with hypotheses a witness that
meets them. -/

namespace Sys2Proof.Tests

open Sys2Proof.Machine

/-- Registers at this hardware's width with the operands given, the others zero, not halted. -/
def withOperands (cb : Word32) (ts : BitVec 1) (tm wk hr : Nat) : Regs 256 :=
  { Regs.reset 256 with cb := cb, ts := ts, tm := BitVec.ofNat 256 tm, wk := BitVec.ofNat 256 wk, hr := BitVec.ofNat 256 hr }

/-- A machine with these registers and this data word on the port, nothing offered. -/
def machine (x : Regs 256) (w : Word32) : State := { regs := x, inbox := [], wdata := w, rsp := none }

/-- A halted machine: 95_test_vectors.md V-HALT. -/
def haltedRegs : Regs 256 := { withOperands 0x21010000#32 0 0 0 0 with sr := { fatal := 1, cause := 2 } }

/- Well-formedness: one ill-formed term for each check. -/

theorem test_wf_get_limb_out_of_range : ¬Instr.WF 256 (.get .cb 1) := by decide
theorem test_wf_get_limb_eight : ¬Instr.WF 256 (.get .tm 8) ∧ Instr.WF 256 (.get .tm 7) := by decide
theorem test_wf_put_limb_out_of_range : ¬Instr.WF 256 (.put .hr 8) := by decide
theorem test_wf_put_read_only : ¬Instr.WF 256 (.put .wk 0) ∧ ¬Instr.WF 256 (.put .sr 0) := by decide
theorem test_wf_wide_target : Instr.WF 2048 (.get .tm 63) ∧ ¬Instr.WF 2048 (.get .tm 64) := by decide

/- Decoding: words written out from 30_encoding.md R40 to R42, and V-ILL of 95_test_vectors.md. -/

theorem test_decode_get : decodeCommand 256 0b00000001_00000011_00000111_00000000#32 = .ok (.get .wk 7) := rfl
theorem test_decode_get_sr : decodeCommand 256 0b00000001_00000110_00000000_00000000#32 = .ok (.get .sr 0) := rfl
theorem test_decode_put : decodeCommand 256 0b00000010_00000100_00000001_00000000#32 = .ok (.put .hr 1) := rfl
theorem test_decode_put_ts : decodeCommand 256 0b00000010_00000001_00000000_00000000#32 = .ok (.put .ts 0) := rfl
theorem test_decode_dec : decodeCommand 256 0b00010000_00000000_00000000_00000000#32 = .ok .dec := rfl
theorem test_decode_enc : decodeCommand 256 0b00010001_00000000_00000000_00000000#32 = .ok .enc := rfl
theorem test_decode_wrkt : decodeCommand 256 0b00100000_00000000_00000000_00000000#32 = .ok .wrkt := rfl
theorem test_decode_wrkc : decodeCommand 256 0b00100001_00000000_00000000_00000000#32 = .ok .wrkc := rfl
theorem test_decode_divt : decodeCommand 256 0b00100010_00000000_00000000_00000000#32 = .ok .divt := rfl
theorem test_decode_wide : decodeCommand 2048 0x01023f00#32 = .ok (.get .tm 63) := rfl
theorem test_illegal_opcode : decodeCommand 256 0x12000000#32 = .error .undefinedOpcode := rfl
theorem test_illegal_reserved_c : decodeCommand 256 0x11800000#32 = .error .reservedBitsC := rfl
theorem test_illegal_reserved_m : decodeCommand 256 0x020400ff#32 = .error .reservedBitsM := rfl
theorem test_illegal_register : decodeCommand 256 0x01070000#32 = .error .noSuchRegister := rfl
theorem test_illegal_limb : decodeCommand 256 0x01020800#32 = .error .limbOutOfRange := rfl
theorem test_illegal_read_only : decodeCommand 256 0x02050700#32 = .error .readOnlyRegister := rfl
theorem test_table_words_count : (legalCommands Config.TW).length = 58 := by decide

/- Vectors of 95_test_vectors.md, one step each. -/

/-- V-DEC: a negative value is truncated toward zero. -/
theorem test_dec_negative :
    decReply (withOperands 0x01fedcba#32 0 0 0 0) = respond 0 (withOperands 0x01fedcba#32 1 0x7e 0 0) := by decide

/-- V-DEC: `2^256` is one too many. -/
theorem test_dec_overflow :
    decReply (withOperands 0x21010000#32 0 5 0 0)
      = respond 0 { withOperands 0x21010000#32 0 5 0 0 with sr := { fatal := 1, cause := 2 } } := by decide

/-- V-ENC: the fix-up on a top byte of `0x80`. -/
theorem test_enc_fix_up : (encReply (withOperands 0 1 0x80 0 0)).regs.cb = 0x02808000#32 := by decide

/-- S1: the ceiling pair of the source. -/
theorem test_enc_ceiling : (encReply (withOperands 0 0 (2 ^ 236 - 1) 0 0)).regs.cb = 0x1e0fffff#32 := by decide

/-- V-WRK: the divisor is `2^256` itself. -/
theorem test_wrkt_wide_divisor : (wrktReply (withOperands 0 0 (2 ^ 256 - 1) 9 0)).regs.wk = 1 := by decide

/-- V-WRK: `floor(2^256 / 257)`. -/
theorem test_wrkt_257 :
    (wrktReply (withOperands 0 0 0x100 0 0)).regs.wk
      = 0xff00ff00ff00ff00ff00ff00ff00ff00ff00ff00ff00ff00ff00ff00ff00ff#256 := by decide

/-- S3: the source's scenario. -/
theorem test_wrkc_scenario :
    wrkcReply (withOperands 0x1c0ffff0#32 0 0 0 0)
      = respond 0 (withOperands 0x1c0ffff0#32 0 (0x0ffff0 * 2 ^ 200) 0x1000100010 0) := by decide

/-- V-WRKC: a negative target has no work, and its sign is kept. -/
theorem test_wrkc_negative :
    wrkcReply (withOperands 0x04923456#32 0 0 7 0)
      = respond 0 (withOperands 0x04923456#32 1 0x12345600 0 0) := by decide

/-- V-DIV: 0.1 GH/s, 687.2 truncated. -/
theorem test_divt_truncates : (divtReply (withOperands 0 0 0 0x1000100010 0x5f5e100)).regs.tt = 0x2af := by decide

/-- V-DIV: a zero hash rate faults, zero work or not. -/
theorem test_divt_by_zero :
    (divtReply (withOperands 0 0 0 0 0)).regs.sr = { fatal := 1, cause := 4 } := by decide

/-- Section 4: `GET TM[6]` and `GET WK[1]` after the scenario. -/
theorem test_get_limbs :
    (getReply .tm 6 (withOperands 0 0 (0x0ffff0 * 2 ^ 200) 0x1000100010 0)).rdata = 0x0ffff000#32
      ∧ (getReply .wk 1 (withOperands 0 0 (0x0ffff0 * 2 ^ 200) 0x1000100010 0)).rdata = 0x00000010#32 := by decide

/-- V-HALT: `GET SR` is served while halted. -/
theorem test_get_status_while_halted : getReply .sr 0 haltedRegs = respond 0x00000021#32 haltedRegs := by decide

/-- Section 4: `PUT HR[7]` leaves the other limbs alone. -/
theorem test_put_high_limb :
    (putReply .hr 7 0x12345678#32 (withOperands 0 0 0 0 0xe8d4a51000)).regs.hr
      = BitVec.ofNat 256 (0xe8d4a51000 + 0x12345678 * 2 ^ 224) := by decide

/-- Section 4: of the data word of `PUT TS` only bit 0 is used. -/
theorem test_put_sign :
    (putReply .ts 0 0xfffffffe#32 (withOperands 0 1 0 0 0)).regs.ts = 0
      ∧ (putReply .ts 0 0xffffffff#32 (withOperands 0 0 0 0 0)).regs.ts = 1 := by decide

/-- Section 6: legality is decided before the operation's own fault. -/
theorem test_priority_illegal_first :
    (transact 0x10000001#32 0 (withOperands 0x21010000#32 0 0 0 0)).regs.sr.word = 0x00000011#32 := by decide

/-- Section 6: being halted ranks above an illegal word. -/
theorem test_priority_halted_first : transact 0xff000000#32 0 haltedRegs = respond 0 haltedRegs := by decide

/-- Section 7: at `TW = 2048` the work of `2^256` is 0 and nothing faults. -/
theorem test_wide_wrkc :
    (wrkcReply ({ Regs.reset 2048 with cb := 0x21010000#32, wk := 3 } : Regs 2048)).regs.wk = 0
      ∧ (wrkcReply ({ Regs.reset 2048 with cb := 0x21010000#32, wk := 3 } : Regs 2048)).regs.sr.fatal = 0 := by decide +kernel

/-- Section 7: the two sides of the exponent's limit. -/
theorem test_wide_enc :
    (encodeCompact 0 (0x7f <<< 2032) = some 0xff7f0000#32) ∧ encodeCompact 0 (0x80 <<< 2032) = none
      ∧ encodeCompact 0 (0x01 <<< 2040) = none := by decide +kernel

/-- R49: a line with an index left out, a number and a comment. -/
theorem test_parse_put :
    parseLine ['P', 'U', 'T', ' ', 'C', 'B', ',', ' ', '0', 'x', '1', 'c', '0', 'f', ';', ' ', 'n']
      = some (some (.put .cb none 0x1c0f)) := by decide

/-- R49: an index, and the word it assembles to (95_test_vectors.md V-ILL's legal neighbours). -/
theorem test_assemble_get :
    assembleText 256 [['G', 'E', 'T', ' ', 'T', 'M', '[', '7', ']']] = some [{ cmd := 0x01020700#32, wdata := 0 }] := by
  decide

/-- R49: the assembler refuses `PUT WK[0], 1` and `GET TM[8]`; `RAW` takes any word. -/
theorem test_assemble_refuses :
    assembleLine 256 (.put .wk (some 0) 1) = none ∧ assembleLine 256 (.get .tm (some 8)) = none
      ∧ assembleLine 256 (.raw 0x02030000 5) = some [{ cmd := 0x02030000#32, wdata := 5 }] := by decide

/-- R50: `PUTW` writes every limb, zero ones included, lowest first. -/
theorem test_assemble_putw :
    (assembleLine 256 (.putw .hr 0xe8d4a51000)).map (fun qs => (qs.length, qs.head?))
      = some (8, some { cmd := 0x02040000#32, wdata := 0xd4a51000#32 }) := by decide

/-- The fetch word is run by the next step: `DIVT` first after reset raises `DIV_ZERO` (10_state.md R22). -/
theorem test_fetch_word_runs :
    step (State.reset.withFetchWord 32 0x22000000)
      = .next { machine { Regs.reset 256 with sr := { fatal := 1, cause := 4 } } 0 with rsp := some 0 } := rfl

/-- An illegal word on the machine: a next state with `SR = 0x11` (V-ILL). -/
theorem test_illegal_word_step :
    step (State.reset.withFetchWord 32 0x00000000)
      = .next { machine { Regs.reset 256 with sr := { fatal := 1, cause := 1 } } 0 with rsp := some 0 } := rfl

/- Witnesses: a concrete input for the hypotheses of each statement, at a boundary of each clause. -/

theorem witness_DecodeOfEncode :
    Instr.WF 256 (.get .tm 7) ∧ Instr.WF 256 (.put .hr 7) ∧ Instr.WF 32 (.put .tm 0) ∧ Instr.WF 256 .divt := by decide

theorem witness_DecodedWordIsTheEncoding : decodeCommand 256 0x02020700#32 = .ok (.put .tm 7) := rfl

theorem witness_IllegalWordsAndTheirEffect_opcode : IllegalWord 256 0x23000000#32 := by decide

theorem witness_IllegalWordsAndTheirEffect_reservedBits : IllegalWord 256 0x10000001#32 := by decide

theorem witness_IllegalWordsAndTheirEffect_register : IllegalWord 256 0x01070000#32 := by decide

theorem witness_IllegalWordsAndTheirEffect_limb : IllegalWord 256 0x01020800#32 := by decide

theorem witness_IllegalWordsAndTheirEffect_readOnly : IllegalWord 256 0x02030000#32 := by decide

theorem witness_IllegalWordsAndTheirEffect_states :
    (withOperands 0 0 0 0 0).sr.fatal ≠ 1 ∧ haltedRegs.sr.fatal = 1 := by decide

theorem test_legal_neighbour : ¬IllegalWord 256 0x01020700#32 := by decide

/-- A machine offered a `WRKC` and then a reset. -/
def offered : State :=
  { machine (withOperands 0x1c0ffff0#32 0 0 0 1) 0 with inbox := [.command 0x21000000#32 5, .reset] }

theorem witness_StepRunsTheDecodedCommand :
    offered.inbox = .command 0x21000000#32 5 :: [.reset] ∧ decodeCommand Config.TW 0x21000000#32 = .ok .wrkc := ⟨rfl, rfl⟩

theorem witness_StepIsTheTransaction : offered.inbox = .command 0x21000000#32 5 :: [.reset] := rfl

theorem witness_StepOnResetAndWhenIdle :
    ({ offered with inbox := [.reset] } : State).inbox = .reset :: [] ∧ State.reset.inbox = [] := ⟨rfl, rfl⟩

theorem witness_EveryStepGivesANextState : offered.inbox = .command 0x21000000#32 5 :: [.reset] := rfl

theorem witness_GetRespondsTheLimb : ValidAddress Config.TW .tm 7 ∧ ValidAddress Config.TW .sr 0 := by decide

theorem witness_LimbsMakeTheRegister :
    Config.LegalWidth 256 ∧ Config.LegalWidth 32 ∧ Config.LegalWidth 2048 ∧ 31 < 32 := by decide

theorem witness_PutWritesTheLimb :
    (machine (withOperands 0 0 0 0 0) 7).regs.sr.fatal ≠ 1 ∧ (7 : Byte).toNat < 8 ∧ (0 : Byte).toNat < 8 := by decide

theorem witness_PutIsIdempotent : opField 0x02020700#32 = 0x02#8 := rfl

theorem witness_GetAfterPut :
    Config.LegalWidth 256 ∧ (withOperands 0 0 0 0 0).sr.fatal ≠ 1 ∧ Reg.tm.hostWritable = true
      ∧ ValidAddress 256 .tm 7 ∧ ValidAddress 256 .wk 0 := by decide

theorem witness_OnlyPutReadsTheDataWord : opField 0x10000000#32 ≠ 0x02#8 := by decide

theorem witness_OnlyPutReadsTheDataWord_noGet (r : Reg) (k : Byte) :
    decodeCommand 256 0x10000000#32 ≠ .ok (.get r k) := by
  intro h
  cases h

theorem witness_InvalidAddressIsIllegal :
    ¬Instr.WF Config.TW (.get .cb 1) ∧ ¬Instr.WF Config.TW (.put .wk 0)
      ∧ (machine (withOperands 0 0 0 0 0) 0).regs.sr.fatal ≠ 1 ∧ (machine haltedRegs 0).regs.sr.fatal = 1 := by decide

theorem witness_DecWritesTheTarget :
    (machine (withOperands 0x2100ffff#32 0 0 0 0) 0).regs.sr.fatal ≠ 1
      ∧ compactMag (machine (withOperands 0x2100ffff#32 0 0 0 0) 0).regs.cb < 2 ^ 256 := by decide

theorem witness_DecodeOverflowFaults :
    (withOperands 0x21010000#32 0 0 0 0).sr.fatal ≠ 1
      ∧ 2 ^ 256 ≤ compactMag (withOperands 0x21010000#32 0 0 0 0).cb
      ∧ compactMag (withOperands 0x2100ffff#32 0 0 0 0).cb < 2 ^ 256 ∧ field 0xff000000#32 22 0 = 0 := by decide

theorem witness_DecodedZeroHasNoSign :
    (withOperands 0x02800056#32 1 0 0 0).sr.fatal ≠ 1 ∧ compactMag (withOperands 0x02800056#32 1 0 0 0).cb = 0
      ∧ compactMag (withOperands 0x02808000#32 1 0 0 0).cb < 2 ^ 256 := by decide

theorem witness_EncWritesTheCompactWord :
    (machine (withOperands 0 1 0x7fffff 0 0) 0).regs.sr.fatal ≠ 1 ∧ (withOperands 0 1 0x7fffff 0 0).tm ≠ 0
      ∧ (withOperands 0 1 0x800000 0 0).tm ≠ 0 ∧ (withOperands 0 1 0 0 0).tm = 0 := by decide

/-- A target of 255 bytes at `TW = 2048` with the top byte given (95_test_vectors.md section 7). -/
def wideTarget (top : Nat) : Regs 2048 := { Regs.reset 2048 with tm := BitVec.ofNat 2048 (top * 2 ^ 2032) }

theorem witness_EncodeOverflowNeedsAWideTarget :
    Config.LegalWidth 2048 ∧ (wideTarget 0x80).sr.fatal ≠ 1
      ∧ byteLength (wideTarget 0x80).tm.toNat = 255 ∧ 0x80 ≤ byteDigit (wideTarget 0x80).tm.toNat 254
      ∧ byteDigit (wideTarget 0x7f).tm.toNat 254 < 0x80 ∧ byteLength (wideTarget 0x100).tm.toNat = 256 := by decide +kernel

theorem witness_ShapeOfADecodedTarget :
    (withOperands 0x01fedcba#32 0 0 0 0).sr.fatal ≠ 1
      ∧ compactMag (withOperands 0x01fedcba#32 0 0 0 0).cb < 2 ^ 256 := by decide

theorem witness_DecThenEncKeepsCanonicalWords :
    Config.LegalWidth 256 ∧ (withOperands 0x05000012#32 0 0 0 0).sr.fatal ≠ 1
      ∧ compactMag (withOperands 0x05000012#32 0 0 0 0).cb < 2 ^ 256 := by decide

theorem witness_EncThenDecTruncates :
    (withOperands 0 1 0xffffff 0 0).sr.fatal ≠ 1 ∧ (withOperands 0 1 0xffffff 0 0).tm ≠ 0
      ∧ (transact 0x11000000#32 0 (withOperands 0 1 0xffffff 0 0)).regs.sr.fatal ≠ 1
      ∧ (withOperands 0 1 0x7fffff 0 0).tm.toNat < 2 ^ 23 := by decide

theorem witness_EncWritesCanonicalWords :
    Config.LegalWidth 256 ∧ (withOperands 0 1 0x80 0 0).sr.fatal ≠ 1 ∧ (withOperands 0 1 0x80 0 0).tm ≠ 0
      ∧ (transact 0x11000000#32 0 (withOperands 0 1 0x80 0 0)).regs.sr.fatal ≠ 1 := by decide

theorem witness_SignSymmetryOfTheCodec : (decodeCompact 0x03123456#32).mag ≠ 0 ∧ (0x12345600 : Nat) ≠ 0 := by decide

theorem witness_DecodeIsMonotone :
    field 0x03000001#32 31 24 = field 0x03000002#32 31 24 ∧ field 0x03000001#32 22 0 ≤ field 0x03000002#32 22 0
      ∧ field 0x03008000#32 31 24 < field 0x04008000#32 31 24 ∧ field 0x03008000#32 22 0 = field 0x04008000#32 22 0
      ∧ (decodeCompact 0x03008000#32).mag ≠ 0 := by decide

/-- The example of log entry 7: two exponents over the same non-zero mantissa, both of magnitude 0. -/
theorem test_small_exponents_lose_the_mantissa :
    (decodeCompact 0x01000001#32).mag = 0 ∧ (decodeCompact 0x02000001#32).mag = 0 := by decide

theorem witness_WrktWritesTheWork :
    (machine (withOperands 0 0 1 0 0) 0).regs.sr.fatal ≠ 1 ∧ (withOperands 0 0 1 0 0).ts = 0
      ∧ (withOperands 0 0 1 0 0).tm ≠ 0 ∧ (withOperands 0 1 5 0 0).ts = 1 := by decide

theorem witness_WrkcWritesTargetAndWork :
    (machine (withOperands 0x01010000#32 0 0 0 0) 0).regs.sr.fatal ≠ 1
      ∧ compactMag (machine (withOperands 0x01010000#32 0 0 0 0) 0).regs.cb < 2 ^ 256
      ∧ field 0x01010000#32 23 23 = 0 ∧ compactMag 0x01010000#32 ≠ 0 ∧ field 0x04923456#32 23 23 = 1
      ∧ compactMag 0x00800000#32 = 0 := by decide

theorem witness_DivtWritesTheTime :
    (machine (withOperands 0 0 0 7 2) 0).regs.sr.fatal ≠ 1 ∧ (machine (withOperands 0 0 0 7 2) 0).regs.hr ≠ 0 := by decide

theorem witness_DivtByZeroFaults :
    (machine (withOperands 0 0 0 7 0) 0).regs.sr.fatal ≠ 1 ∧ (machine (withOperands 0 0 0 7 0) 0).regs.hr = 0 := by decide

theorem witness_WorkIsInRange :
    (1 : Nat) ≤ 1 ∧ (2 ^ 256 - 1 : Nat) ≤ 2 ^ 256 - 1 ∧ (withOperands 0 0 1 0 0).sr.fatal ≠ 1
      ∧ compactMag (withOperands 0x01010000#32 0 1 0 0).cb < 2 ^ 256 := by decide

theorem witness_WorkIsTheUniqueQuotient : (1 : Nat) ≤ 1 ∧ 2 ^ 255 = workOfTarget 0 1 := by decide

theorem witness_WorkFallsAsTheTargetRises :
    (1 : Nat) ≤ 2 ^ 128 - 3 ∧ (2 ^ 128 - 3 : Nat) < 2 ^ 128 - 2 ∧ (2 ^ 128 - 2 : Nat) < 2 ^ 128 - 1
      ∧ (2 ^ 128 - 3 + 1) * (2 ^ 128 - 2 + 1) ≤ 2 ^ 256 ∧ targetValue { sign := 1, mag := 0 } ≤ 0
      ∧ targetValue { sign := 1, mag := 5 } ≤ 0 := by decide

theorem witness_WrkcIsDecThenWrkt :
    (withOperands 0xff000001#32 0 0 9 0).sr.fatal ≠ 1
      ∧ 2 ^ 256 ≤ compactMag (withOperands 0xff000001#32 0 0 9 0).cb := by decide

theorem witness_WhatHaltsTheBlock :
    (withOperands 0x21010000#32 0 0 0 0).sr.fatal ≠ 1 ∧ (withOperands 0x21010000#32 0 0 0 0).sr.cause = 0
      ∧ 2 ^ 256 ≤ compactMag (withOperands 0x21010000#32 0 0 0 0).cb ∧ (withOperands 0x21010000#32 0 0 0 0).hr = 0 := by
  decide

theorem witness_WhatHaltsTheBlock_nothing :
    ¬IllegalWord Config.TW 0x20000000#32
      ∧ ¬((0x20000000#32 = 0x10000000#32 ∨ 0x20000000#32 = 0x21000000#32)
          ∧ 2 ^ 256 ≤ compactMag (withOperands 0x21010000#32 0 0 0 0).cb)
      ∧ ¬(0x20000000#32 = 0x22000000#32 ∧ (withOperands 0x21010000#32 0 0 0 0).hr = 0) :=
  ⟨by decide, by decide, by decide⟩

theorem witness_FaultsArePrecise :
    (withOperands 0x21010000#32 0 5 0 0).sr.fatal ≠ 1
      ∧ (transact 0x21000000#32 0 (withOperands 0x21010000#32 0 5 0 0)).regs.sr.fatal = 1 := by decide

theorem witness_HaltedBlockIsFrozen :
    haltedRegs.sr.fatal = 1 ∧ decodeCommand 256 0x01060000#32 = .ok (.get .sr 0) := ⟨rfl, rfl⟩

theorem witness_HaltedBlockIsFrozen_noGet (r : Reg) (k : Byte) :
    decodeCommand 256 0xff000000#32 ≠ .ok (.get r k) := by
  intro h
  cases h

theorem witness_HaltedCommandsAreRefused : (machine haltedRegs 0).regs.sr.fatal = 1 := rfl

theorem witness_HaltedCommandsAreRefused_noGet (r : Reg) (k : Byte) : Instr.dec ≠ .get r k := by
  intro h
  cases h

theorem witness_OnlyResetLeavesTheHalt :
    (machine haltedRegs 0).regs.sr.fatal = 1
      ∧ step { machine haltedRegs 0 with inbox := [.reset] } = .next State.reset := ⟨rfl, rfl⟩

theorem witness_WhoMayChangeARegister :
    (transact 0x11000000#32 0 (withOperands 0 0 5 0 1)).regs.cb ≠ 0
      ∧ (transact 0x21000000#32 0 (withOperands 0x01fedcba#32 0 5 9 1)).regs.ts ≠ 0
      ∧ (transact 0x20000000#32 0 (withOperands 0 0 5 0 1)).regs.wk ≠ 0
      ∧ (transact 0x02040000#32 7 (withOperands 0 0 5 0 1)).regs.hr ≠ 1
      ∧ (transact 0x22000000#32 0 (withOperands 0 0 5 9 1)).regs.tt ≠ 0
      ∧ (transact 0x00000000#32 0 (withOperands 0 0 5 9 1)).regs.sr ≠ (withOperands 0 0 5 9 1).sr := by decide

theorem witness_FatalExactlyWithACause :
    (State.reset.regs.sr.fatal = 1 ↔ State.reset.regs.sr.cause ≠ 0) ∧ step State.reset = .next State.reset :=
  ⟨by decide, rfl⟩

theorem witness_FatalExactlyWithACause_run :
    Host.Core.run Sys2Proof.core 1 { State.reset with inbox := [.command 0x22000000#32 0] }
      = .next { machine { Regs.reset 256 with sr := { fatal := 1, cause := 4 } } 0 with rsp := some 0 } := rfl

theorem witness_EveryStepKeepsTheRegistersInvariant :
    RegsInv (withOperands 0x01010000#32 0 1 (2 ^ 255) 1) ∧ step State.reset = .next State.reset :=
  ⟨⟨.inl (by decide), ⟨0, 1, by decide⟩, ⟨0, 1, ⟨1, 0, by decide⟩, by decide, by decide⟩⟩, rfl⟩

theorem witness_StepsAreTheRun :
    ({ State.reset with inbox := [.command 0x10000000#32 0, .reset] } : State).inbox
      = [({ cmd := 0x10000000#32, wdata := 0 } : Request)].map (fun q => PortEvent.command q.cmd q.wdata)
          ++ [.reset]
      ∧ 0 < [({ cmd := 0x10000000#32, wdata := 0 } : Request)].length := ⟨rfl, by decide⟩

theorem witness_PutwWritesTheWholeRegister :
    Config.LegalWidth 256 ∧ (withOperands 0 0 0 0 0).sr.fatal ≠ 1 ∧ (2 ^ 32 - 1 : Nat) < 2 ^ 32
      ∧ (2 ^ 256 - 1 : Nat) < 2 ^ 256 := by decide

theorem witness_GetwReadsTheWholeRegister : Config.LegalWidth 32 ∧ Config.LegalWidth 2048 := by decide

theorem witness_AssembledWordsAreLegal :
    Config.LegalWidth 256 ∧ assembleLine 256 (.get .tm (some 7)) = some [{ cmd := 0x01020700#32, wdata := 0 }] := by decide

theorem witness_AssembledWordsAreLegal_noRaw (word data : Nat) : AsmLine.get .tm (some 7) ≠ .raw word data := by
  intro h
  cases h

/-- Pins that offer a `DIVT`, and pins that offer nothing. -/
def offerDivt : Pins := { rst := false, cmdValid := true, cmd := 0x22000000#32, wdata := 0 }
def quiet : Pins := { rst := false, cmdValid := false, cmd := 0, wdata := 0 }

theorem witness_AcceptedCommandsRespondOnce :
    ∃ ps : List Pins, ({ regs := Regs.reset 256, phase := .ready } : Signals 256).phase = .ready
      ∧ offerDivt.rst = false ∧ offerDivt.cmdValid = true ∧ quiet.rst = false ∧ (∀ p ∈ ps, p.rst = false)
      ∧ ps.length = cyclesLeft offerDivt.cmd offerDivt.wdata (Regs.reset 256) + 1 :=
  ⟨List.replicate (cyclesLeft offerDivt.cmd offerDivt.wdata (Regs.reset 256) + 1) quiet, rfl, rfl, rfl, rfl,
    fun _ h => (List.eq_of_mem_replicate h) ▸ rfl, List.length_replicate⟩

theorem witness_AcceptedCommandsRespondOnce_busy :
    ([] : List Pins).length ≤ cyclesLeft offerDivt.cmd offerDivt.wdata (Regs.reset 256) := Nat.zero_le _

theorem witness_ResetPinWins : ({ quiet with rst := true } : Pins).rst = true ∧ quiet.rst = false := ⟨rfl, rfl⟩

end Sys2Proof.Tests
end

/-! PROOFS of the family 10_state.md: what one transaction can do to `SR`, what one step can do to the registers, the
invariant that `FATAL` and `CAUSE` agree, and the reset state. -/

namespace Sys2Proof.Proofs

open Sys2Proof.Machine Sys2Proof.Laws

variable {tw : Nat}

/-- The two things a reply can do to `SR`: leave it alone, or record a cause in it from a block that is not halted
(60_exceptions.md R84, R87). -/
def KeepsStatusOrFaults (x : Regs tw) (a : Reply tw) : Prop :=
  a.regs.sr = x.sr ∨ (x.sr.fatal ≠ 1 ∧ ∃ e, a = raiseFatal e x)

theorem keepsStatusOrFaults_of_sr {x : Regs tw} {a : Reply tw} (h : a.regs.sr = x.sr) : KeepsStatusOrFaults x a :=
  .inl h

theorem keepsStatusOrFaults_raiseFatal {x : Regs tw} (e : Cause) (hf : x.sr.fatal ≠ 1) :
    KeepsStatusOrFaults x (raiseFatal e x) :=
  .inr ⟨hf, e, rfl⟩

/-- A `PUT` never writes `SR`: the register is read only (42_register_access.md R79). -/
@[simp] theorem regWrite_sr (r : Reg) (k : Byte) (v : Word32) (x : Regs tw) : (regWrite r k v x).sr = x.sr := by
  cases r <;> rfl

theorem illegalCommand_keepsStatusOrFaults (x : Regs tw) : KeepsStatusOrFaults x (illegalCommand x) := by
  obtain ⟨-, h⟩ | ⟨hf, h⟩ := illegalCommand_cases x <;> rw [h]
  · exact keepsStatusOrFaults_of_sr rfl
  · exact keepsStatusOrFaults_raiseFatal _ hf

theorem commandReply_keepsStatusOrFaults (i : Instr) (w : Word32) (x : Regs tw) :
    KeepsStatusOrFaults x (commandReply i w x) := by
  cases i with
  | get r k =>
    change KeepsStatusOrFaults x (getReply r k x)
    obtain ⟨-, h⟩ | ⟨-, h⟩ := getReply_cases x r k <;> rw [h]
    · exact keepsStatusOrFaults_of_sr rfl
    · exact illegalCommand_keepsStatusOrFaults x
  | put r k =>
    change KeepsStatusOrFaults x (putReply r k w x)
    obtain ⟨-, h⟩ | ⟨-, -, -, h⟩ | ⟨hf, -, h⟩ := putReply_cases x r k w <;> rw [h]
    · exact keepsStatusOrFaults_of_sr rfl
    · exact keepsStatusOrFaults_of_sr (regWrite_sr r k w x)
    · exact keepsStatusOrFaults_raiseFatal _ hf
  | dec =>
    change KeepsStatusOrFaults x (decReply x)
    obtain ⟨-, h⟩ | ⟨hf, -, h⟩ | ⟨-, -, h⟩ := decReply_cases x <;> rw [h]
    · exact keepsStatusOrFaults_of_sr rfl
    · exact keepsStatusOrFaults_raiseFatal _ hf
    · exact keepsStatusOrFaults_of_sr rfl
  | enc =>
    change KeepsStatusOrFaults x (encReply x)
    obtain ⟨-, h⟩ | ⟨hf, -, h⟩ | ⟨-, c, -, h⟩ := encReply_cases x <;> rw [h]
    · exact keepsStatusOrFaults_of_sr rfl
    · exact keepsStatusOrFaults_raiseFatal _ hf
    · exact keepsStatusOrFaults_of_sr rfl
  | wrkt =>
    change KeepsStatusOrFaults x (wrktReply x)
    obtain ⟨-, h⟩ | ⟨-, h⟩ := wrktReply_cases x <;> rw [h]
    · exact keepsStatusOrFaults_of_sr rfl
    · exact keepsStatusOrFaults_of_sr rfl
  | wrkc =>
    change KeepsStatusOrFaults x (wrkcReply x)
    obtain ⟨-, h⟩ | ⟨hf, -, h⟩ | ⟨-, -, h⟩ := wrkcReply_cases x <;> rw [h]
    · exact keepsStatusOrFaults_of_sr rfl
    · exact keepsStatusOrFaults_raiseFatal _ hf
    · exact keepsStatusOrFaults_of_sr rfl
  | divt =>
    change KeepsStatusOrFaults x (divtReply x)
    obtain ⟨-, h⟩ | ⟨hf, -, h⟩ | ⟨-, -, h⟩ := divtReply_cases x <;> rw [h]
    · exact keepsStatusOrFaults_of_sr rfl
    · exact keepsStatusOrFaults_raiseFatal _ hf
    · exact keepsStatusOrFaults_of_sr rfl

/-- What a command word, legal or not, can do to `SR` (10_state.md R18, 60_exceptions.md R84). -/
theorem transact_keepsStatusOrFaults (c w : Word32) (x : Regs tw) : KeepsStatusOrFaults x (transact c w x) := by
  cases h : decodeCommand tw c with
  | ok i => rw [transact_of_ok x w h]; exact commandReply_keepsStatusOrFaults i w x
  | error e => rw [transact_of_error x w h]; exact illegalCommand_keepsStatusOrFaults x

/-- Everything a step can do, by the host's oldest input (20_memory.md R30, R33; 70_reset_and_hazards.md R96). -/
theorem step_cases {s t : State} (h : step s = .next t) :
    (s.inbox = [] ∧ t = idle s)
      ∨ (∃ rest, s.inbox = .reset :: rest ∧ t = takeReset rest)
      ∨ (∃ c w rest, s.inbox = .command c w :: rest ∧ t = settle (accept w rest s) (transact c w s.regs)) := by
  unfold step at h
  split at h
  next hin =>
    cases h
    exact .inl ⟨hin, rfl⟩
  next rest hin =>
    cases h
    exact .inr (.inl ⟨rest, hin, rfl⟩)
  next c w rest hin =>
    rw [runWord_eq_finish] at h
    cases h
    exact .inr (.inr ⟨c, w, rest, hin, rfl⟩)

/-- A predicate on the registers that holds at reset and that every transaction keeps is kept by every step. -/
theorem step_preserves_regs {P : Regs Config.TW → Prop} (hreset : P (Regs.reset Config.TW))
    (htransact : ∀ c w x, P x → P (transact c w x).regs) {s t : State} (hs : P s.regs) (h : step s = .next t) :
    P t.regs := by
  obtain ⟨-, rfl⟩ | ⟨rest, -, rfl⟩ | ⟨c, w, rest, -, rfl⟩ := step_cases h
  · exact hs
  · exact hreset
  · exact htransact c w s.regs hs

/-- The step is total: no input ends in a fault or a refusal of the model (00_scope.md R8). -/
theorem step_isNext (s : State) : ∃ t, step s = .next t := by
  unfold step
  split
  next => exact ⟨_, rfl⟩
  next => exact ⟨_, rfl⟩
  next c w rest _ => exact ⟨_, runWord_eq_finish c (accept w rest s)⟩

/-- A run's first step (Host/Core.lean). -/
theorem run_succ {s u : State} (h : step s = .next u) (k : Nat) :
    Host.Core.run Sys2Proof.core (k + 1) s = Host.Core.run Sys2Proof.core k u := by
  have hcore : Sys2Proof.core.step s = .next u := h
  simp only [Host.Core.run, hcore]

/-- A predicate that every step keeps is kept by every run. -/
theorem run_preserves {P : State → Prop} (hstep : ∀ s t, P s → step s = .next t → P t) {k : Nat} {s t : State}
    (hs : P s) (h : Host.Core.run Sys2Proof.core k s = .next t) : P t := by
  induction k generalizing s with
  | zero =>
    cases h
    exact hs
  | succ k ih =>
    obtain ⟨u, hu⟩ := step_isNext s
    rw [run_succ hu] at h
    exact ih (hstep s u hs hu) h

/-- `FATAL` is set exactly with a cause (10_state.md R19). -/
def FatalIffCause (x : Regs tw) : Prop := x.sr.fatal = 1 ↔ x.sr.cause ≠ 0

/-- No cause has the code 0, so a recorded fault is always seen in `CAUSE` (60_exceptions.md R82). -/
theorem code_ne_zero (e : Cause) : e.code ≠ 0 := by
  cases e <;> decide

theorem fatalIffCause_reset : FatalIffCause (Regs.reset tw) := by
  simp [FatalIffCause]

theorem fatalIffCause_raiseFatal (e : Cause) (x : Regs tw) : FatalIffCause (raiseFatal e x).regs :=
  iff_of_true rfl (code_ne_zero e)

theorem transact_keeps_fatalIffCause (c w : Word32) (x : Regs tw) (hx : FatalIffCause x) :
    FatalIffCause (transact c w x).regs := by
  obtain hsr | ⟨-, e, he⟩ := transact_keepsStatusOrFaults c w x
  · unfold FatalIffCause
    rw [hsr]
    exact hx
  · rw [he]
    exact fatalIffCause_raiseFatal e x

theorem step_keeps_fatalIffCause {s t : State} (hs : FatalIffCause s.regs) (h : step s = .next t) :
    FatalIffCause t.regs :=
  step_preserves_regs fatalIffCause_reset transact_keeps_fatalIffCause hs h

/-- Settles O44: the invariant holds at reset, every step keeps it, and so does every run, by induction on its length. -/
theorem fatalExactlyWithACause : Obligations.FatalExactlyWithACause :=
  ⟨fatalIffCause_reset, fun _ _ => step_keeps_fatalIffCause, fun _ _ _ =>
    run_preserves (P := fun s => FatalIffCause s.regs) (fun _ _ => step_keeps_fatalIffCause) fatalIffCause_reset⟩

/- The reset state (10_state.md R22). -/

theorem reset_not_halted : (Regs.reset tw).sr.fatal ≠ 1 := by
  simp

/-- `SR` reads 0 after reset, the reserved bits included (10_state.md R18). -/
theorem reset_statusWord : (Regs.reset tw).sr.word = 0 := by
  change SR.word { fatal := 0, cause := 0 } = 0
  decide

/-- The compact word 0 stands for the target 0 (40_codec.md R51). -/
theorem decodeCompact_zero : decodeCompact 0 = { sign := 0, mag := 0 } := by
  decide

/-- A magnitude of 0 encodes as the word 0 whatever its sign (40_codec.md R54). -/
@[simp] theorem encodeCompact_zero (s : BitVec 1) : encodeCompact s 0 = some 0 := rfl

/-- A target of 0 is no work (41_work.md R65). -/
@[simp] theorem workOfTarget_zero (s : BitVec 1) : workOfTarget s 0 = 0 := by
  simp [workOfTarget]

theorem writeTarget_reset : writeTarget (decodeCompact 0) (Regs.reset tw) = Regs.reset tw := by
  rw [decodeCompact_zero]
  rfl

theorem writeWork_reset : writeWork (Regs.reset tw) = Regs.reset tw := by
  simp [writeWork, Regs.reset]

theorem reset_no_decOverflow : ¬2 ^ tw ≤ decodedMag (Regs.reset tw).cb := by
  have hmag : decodedMag 0 = 0 := congrArg Target.mag decodeCompact_zero
  rw [regsReset_cb, hmag]
  exact Nat.not_le.mpr (Nat.two_pow_pos tw)

theorem decReply_reset : decReply (Regs.reset tw) = respond 0 (Regs.reset tw) := by
  obtain ⟨hf, -⟩ | ⟨-, ho, -⟩ | ⟨-, -, h⟩ := decReply_cases (Regs.reset tw)
  · exact absurd hf reset_not_halted
  · exact absurd ho reset_no_decOverflow
  · rw [h, regsReset_cb, writeTarget_reset]

theorem encodeCompact_reset :
    encodeCompact (Regs.reset tw).ts (Regs.reset tw).tm.toNat = some (Regs.reset tw).cb := by
  simp

theorem encReply_reset : encReply (Regs.reset tw) = respond 0 (Regs.reset tw) := by
  obtain ⟨hf, -⟩ | ⟨-, hn, -⟩ | ⟨-, c, hc, h⟩ := encReply_cases (Regs.reset tw)
  · exact absurd hf reset_not_halted
  · simp at hn
  · obtain rfl : (Regs.reset tw).cb = c := Option.some.inj (encodeCompact_reset.symm.trans hc)
    exact h

theorem wrktReply_reset : wrktReply (Regs.reset tw) = respond 0 (Regs.reset tw) := by
  obtain ⟨hf, -⟩ | ⟨-, h⟩ := wrktReply_cases (Regs.reset tw)
  · exact absurd hf reset_not_halted
  · rw [h, writeWork_reset]

theorem wrkcReply_reset : wrkcReply (Regs.reset tw) = respond 0 (Regs.reset tw) := by
  obtain ⟨hf, -⟩ | ⟨-, ho, -⟩ | ⟨-, -, h⟩ := wrkcReply_cases (Regs.reset tw)
  · exact absurd hf reset_not_halted
  · exact absurd ho reset_no_decOverflow
  · rw [h, regsReset_cb, writeTarget_reset, writeWork_reset]

/-- `HR` is 0 at reset, so a first `DIVT` faults (41_work.md R71). -/
theorem divtReply_reset : divtReply (Regs.reset tw) = raiseFatal .divZero (Regs.reset tw) := by
  obtain ⟨hf, -⟩ | ⟨-, -, h⟩ | ⟨-, hr, -⟩ := divtReply_cases (Regs.reset tw)
  · exact absurd hf reset_not_halted
  · exact h
  · exact absurd regsReset_hr hr

/-- The four compute commands other than `DIVT` find the reset state consistent, and leave it as it is. -/
theorem transact_reset_unchanged (w : Word32) {c : Word32}
    (hc : c ∈ [0x10000000#32, 0x11000000#32, 0x20000000#32, 0x21000000#32]) :
    transact c w (Regs.reset tw) = respond 0 (Regs.reset tw) := by
  simp only [List.mem_cons, List.not_mem_nil, or_false] at hc
  obtain rfl | rfl | rfl | rfl := hc
  · rw [transact_dec, decReply_reset]
  · rw [transact_enc, encReply_reset]
  · rw [transact_wrkt, wrktReply_reset]
  · rw [transact_wrkc, wrkcReply_reset]

/-- Settles O10: each register is 0 and agrees with the others, by the reply of each compute command at reset. -/
theorem resetStateIsConsistent : Obligations.ResetStateIsConsistent := by
  intro tw w
  refine ⟨rfl, reset_statusWord, ?target, encodeCompact_reset, ?work, fun c hc => transact_reset_unchanged w hc, ?divt⟩
  case target => simp [targetValue]
  case work => simp
  case divt =>
    rw [transact_divt, divtReply_reset]
    rfl

end Sys2Proof.Proofs

/-! PROOFS of the family 20_memory.md: a limb as a digit of the register's value in base `2 ^ 32`, and the register as
the number of those digits. -/

namespace Sys2Proof.Proofs

open Sys2Proof.Machine Sys2Proof.Laws

variable {tw : Nat}

/-- A limb of any register as a number: the digit of its value in base `2 ^ 32` (20_memory.md R25). -/
theorem regRead_toNat (r : Reg) (k : Byte) (x : Regs tw) :
    (regRead r k x).toNat = regValue r x / 2 ^ (32 * k.toNat) % 2 ^ 32 := by
  cases r <;> exact limb_toNat _ _

/-- Each bit of a limb is a bit of the register (20_memory.md R25). -/
theorem regRead_getLsbD (r : Reg) (k : Byte) (x : Regs tw) {i : Nat} (hi : i < 32) :
    (regRead r k x).getLsbD i = (regValue r x).testBit (32 * k.toNat + i) := by
  rw [← BitVec.testBit_toNat, regRead_toNat, Nat.testBit_mod_two_pow, Nat.testBit_div_two_pow, Nat.add_comm i]
  simp [hi]

/-- A register's value fits its width (10_state.md R10). -/
theorem regValue_lt_two_pow_width (r : Reg) (x : Regs tw) : regValue r x < 2 ^ r.width tw := by
  cases r <;> exact BitVec.isLt _

/-- The limbs of a register cover its width: the target width is a multiple of 32 (00_scope.md R4, 20_memory.md R24). -/
theorem width_le_limbs (r : Reg) (h : Config.LegalWidth tw) : r.width tw ≤ 32 * r.limbs tw := by
  obtain ⟨hdvd, -, -⟩ := h
  cases r with
  | tm => exact (Nat.mul_div_cancel' hdvd).ge
  | cb | ts | wk | hr | tt | sr =>
    simp only [Reg.width, Reg.limbs, Config.WW, Config.HW, Config.QW, Config.LIMB]
    omega

theorem regValue_lt_of_limbs (r : Reg) (x : Regs tw) (h : Config.LegalWidth tw) :
    regValue r x < 2 ^ (32 * r.limbs tw) :=
  (regValue_lt_two_pow_width r x).trans_le (Nat.pow_le_pow_right Nat.two_pos (width_le_limbs r h))

/-- At the widest target width, 2048, a register has 64 limbs. -/
theorem limbs_le_64 (r : Reg) (h : Config.LegalWidth tw) : r.limbs tw ≤ 64 := by
  obtain ⟨-, -, hmax⟩ := h
  cases r <;> simp only [Reg.limbs, Config.WW, Config.HW, Config.QW, Config.LIMB] <;> omega

/-- So every limb index of a register fits the 8-bit field of a command word (30_encoding.md R44). -/
theorem limbIndex_toNat {r : Reg} {k : Nat} (h : Config.LegalWidth tw) (hk : k < r.limbs tw) :
    (BitVec.ofNat 8 k).toNat = k := by
  have := limbs_le_64 r h
  exact (BitVec.toNat_ofNat k 8).trans (Nat.mod_eq_of_lt (by omega))

/-- The lowest `n` digits of a number in base `2 ^ 32`, each at its place, sum to its remainder. -/
theorem sum_digits (v n : Nat) :
    ((List.range n).map fun k => v / 2 ^ (32 * k) % 2 ^ 32 * 2 ^ (32 * k)).sum = v % 2 ^ (32 * n) := by
  induction n with
  | zero => simp [Nat.mod_one]
  | succ n ih =>
    simp only [List.range_succ, List.map_append, List.map_singleton, List.sum_append, List.sum_singleton, ih]
    simp only [Nat.pow_mul]
    rw [Nat.mod_pow_succ (b := 2 ^ 32), Nat.mul_comm]

/-- The limbs of a register, each at its place, sum to its value (20_memory.md R25). -/
theorem sum_limbs (r : Reg) (x : Regs tw) (h : Config.LegalWidth tw) :
    ((List.range (r.limbs tw)).map fun k => (regRead r (BitVec.ofNat 8 k) x).toNat * 2 ^ (32 * k)).sum
      = regValue r x := by
  have hdigit : ∀ k ∈ List.range (r.limbs tw), (regRead r (BitVec.ofNat 8 k) x).toNat * 2 ^ (32 * k)
      = regValue r x / 2 ^ (32 * k) % 2 ^ 32 * 2 ^ (32 * k) := by
    intro k hk
    rw [regRead_toNat, limbIndex_toNat h (List.mem_range.mp hk)]
  rw [List.map_congr_left hdigit, sum_digits, Nat.mod_eq_of_lt (regValue_lt_of_limbs r x h)]

/-- Settles O13: a limb is a digit of the register's value, and the limbs leave no bit of the register out. -/
theorem limbsMakeTheRegister : Obligations.LimbsMakeTheRegister :=
  fun _ h r x => ⟨sum_limbs r x h, fun k _ hi => regRead_getLsbD r k x hi⟩

end Sys2Proof.Proofs

/-! PROOFS of the family 30_encoding.md: the words that the decoder rejects are the illegal words of R47, and what
executing one does. -/

namespace Sys2Proof.Proofs

open Sys2Proof.Machine Sys2Proof.Laws

variable {tw : Nat}

/- The fields of a command word as the numbers R47 speaks of (30_encoding.md R40, R41). -/

theorem field_opField (c : Word32) : field c 31 24 = (opField c).toNat := by
  have := c.isLt
  rw [opField_toNat]
  simp only [field]
  omega

theorem field_regField (c : Word32) : field c 23 16 = (regField c).toNat :=
  (regField_toNat c).symm

theorem field_limbField (c : Word32) : field c 15 8 = (limbField c).toNat :=
  (limbField_toNat c).symm

theorem field_reservedM (c : Word32) : field c 7 0 = (reservedM c).toNat := by
  simp [field, reservedM_toNat]

theorem field_reservedC (c : Word32) : field c 23 0 = (reservedC c).toNat := by
  simp [field, reservedC_toNat]

theorem field_reservedM_ne_zero_iff (c : Word32) : field c 7 0 ≠ 0 ↔ reservedM c ≠ 0 := by
  simp [field_reservedM, BitVec.toNat_eq]

theorem field_reservedC_ne_zero_iff (c : Word32) : field c 23 0 ≠ 0 ↔ reservedC c ≠ 0 := by
  simp [field_reservedC, BitVec.toNat_eq]

/- The tables of register ids and opcodes, in the numbers of R47. -/

@[simp] theorem limbsOfId_id (tw : Nat) (r : Reg) : limbsOfId tw r.id.toNat = r.limbs tw := by
  cases r <;> rfl

theorem id_lt_seven (r : Reg) : r.id.toNat < 0x07 := by
  cases r <;> decide

/-- The read-only registers by their ids: `WK`, `TT` and `SR` (20_memory.md R24). -/
theorem id_mem_readOnly_iff (r : Reg) : r.id.toNat ∈ [0x03, 0x05, 0x06] ↔ r.hostWritable = false := by
  cases r <;> decide

/-- Ids `0x07` to `0xff` name no register (30_encoding.md R43). -/
theorem seven_le_of_regOf_eq_none {b : Byte} (h : regOf b = none) : 0x07 ≤ b.toNat := by
  revert b
  decide

/-- A byte that is no opcode is of neither format (30_encoding.md R42). -/
theorem not_mem_opcodes_of_opcodeOf_eq_none {b : Byte} (h : opcodeOf b = none) :
    b.toNat ∉ [0x10, 0x11, 0x20, 0x21, 0x22] ∧ b.toNat ∉ [0x01, 0x02] := by
  revert b
  decide

/-- The number in the `op` field of a word whose opcode is known. -/
theorem field_op_of_opcodeOf {c : Word32} {op : Opcode} (h : opcodeOf (opField c) = some op) :
    field c 31 24 = op.byte.toNat := by
  rw [field_opField, byte_of_opcodeOf h]

/- R47 for each format. -/

/-- Cases (c), (d) and (e) of 30_encoding.md R47: what makes a format M word illegal whether it is a `GET` or a `PUT`. -/
def IllegalAddress (tw : Nat) (c : Word32) : Prop :=
  field c 7 0 ≠ 0 ∨ 0x07 ≤ field c 23 16 ∨ limbsOfId tw (field c 23 16) ≤ field c 15 8

theorem illegalWord_of_undefinedOpcode {c : Word32} (h : opcodeOf (opField c) = none) : IllegalWord tw c := by
  obtain ⟨hC, hM⟩ := not_mem_opcodes_of_opcodeOf_eq_none h
  rw [← field_opField] at hC hM
  exact .inl ⟨hC, hM⟩

theorem illegalWord_iff_of_formatC {c : Word32} (h : FormatC c) : IllegalWord tw c ↔ field c 23 0 ≠ 0 := by
  have hM : ¬FormatM c := by
    simp only [List.mem_cons, List.not_mem_nil, or_false] at h ⊢
    omega
  have hput : field c 31 24 ≠ 0x02 := fun hop => hM (by simp [hop])
  simp only [IllegalWord, h, hM, hput, not_true_eq_false, true_and, false_and, false_or, or_false]

theorem illegalWord_iff_of_get {c : Word32} (h : field c 31 24 = 0x01) : IllegalWord tw c ↔ IllegalAddress tw c := by
  simp [IllegalWord, IllegalAddress, h]

theorem illegalWord_iff_of_put {c : Word32} (h : field c 31 24 = 0x02) :
    IllegalWord tw c ↔ IllegalAddress tw c ∨ field c 23 16 ∈ [0x03, 0x05, 0x06] := by
  simp [IllegalWord, IllegalAddress, h, or_assoc]

/- What each part of the decoder rejects. -/

theorem decodeC_error_iff (i : Instr) (c : Word32) : (∃ e, decodeC i c = .error e) ↔ field c 23 0 ≠ 0 := by
  rw [field_reservedC_ne_zero_iff]
  unfold decodeC
  split
  next hz => simp [hz]
  next hz => exact iff_of_true ⟨_, rfl⟩ hz

/-- The address of an accepted format M word is legal by R47. -/
theorem not_illegalAddress_of_decodeM {c : Word32} {r : Reg} {k : Byte} (h : decodeM tw c = .ok (r, k)) :
    ¬IllegalAddress tw c := by
  obtain ⟨hz, hr, rfl, hk⟩ := decodeM_ok h
  rintro (hbits | hid | hlimb)
  · exact (field_reservedM_ne_zero_iff c).mp hbits hz
  · rw [field_regField, hr] at hid
    exact absurd (id_lt_seven r) (Nat.not_lt.mpr hid)
  · rw [field_regField, hr, limbsOfId_id, field_limbField] at hlimb
    exact absurd hk (Nat.not_lt.mpr hlimb)

/-- A format M word is rejected by one of the three cases (c), (d) and (e). -/
theorem illegalAddress_of_decodeM {c : Word32} {e : Illegal} (h : decodeM tw c = .error e) : IllegalAddress tw c := by
  unfold decodeM at h
  split at h
  next hz => exact .inl ((field_reservedM_ne_zero_iff c).mpr hz)
  next =>
    split at h
    next hr =>
      rw [IllegalAddress, field_regField]
      exact .inr (.inl (seven_le_of_regOf_eq_none hr))
    next r hr =>
      split at h
      next => cases h
      next hk =>
        rw [IllegalAddress, field_regField, ← id_of_regOf hr, limbsOfId_id, field_limbField]
        exact .inr (.inr (Nat.not_lt.mp hk))

theorem decodeGet_error_iff (tw : Nat) (c : Word32) : (∃ e, decodeGet tw c = .error e) ↔ IllegalAddress tw c := by
  unfold decodeGet
  cases h : decodeM tw c with
  | error e => simp [illegalAddress_of_decodeM h]
  | ok p => simp [not_illegalAddress_of_decodeM h]

theorem decodePut_error_iff (tw : Nat) (c : Word32) :
    (∃ e, decodePut tw c = .error e) ↔ IllegalAddress tw c ∨ field c 23 16 ∈ [0x03, 0x05, 0x06] := by
  unfold decodePut
  cases h : decodeM tw c with
  | error e => simp [illegalAddress_of_decodeM h]
  | ok p =>
    obtain ⟨r, k⟩ := p
    obtain ⟨-, hr, -, -⟩ := decodeM_ok h
    rw [field_regField, hr, id_mem_readOnly_iff]
    cases hw : r.hostWritable <;> simp [hw, not_illegalAddress_of_decodeM h]

/-- The decoder rejects exactly the words that R47 lists, opcode by opcode. -/
theorem decodeCommand_error_iff (tw : Nat) (c : Word32) :
    (∃ e, decodeCommand tw c = .error e) ↔ IllegalWord tw c := by
  unfold decodeCommand
  cases h : opcodeOf (opField c) with
  | none => exact iff_of_true ⟨_, rfl⟩ (illegalWord_of_undefinedOpcode h)
  | some op =>
    have hop := field_op_of_opcodeOf h
    cases op with
    | get => exact (decodeGet_error_iff tw c).trans (illegalWord_iff_of_get hop).symm
    | put => exact (decodePut_error_iff tw c).trans (illegalWord_iff_of_put hop).symm
    | dec | enc | wrkt | wrkc | divt =>
      have hC : FormatC c := by
        rw [FormatC, hop]
        decide
      exact (decodeC_error_iff _ c).trans (illegalWord_iff_of_formatC hC).symm

theorem not_decodes_iff (tw : Nat) (c : Word32) : (¬∃ i, decodeCommand tw c = .ok i) ↔ IllegalWord tw c := by
  rw [← decodeCommand_error_iff]
  cases decodeCommand tw c <;> simp

/-- Executing an illegal word is the illegal command, whatever the data word (30_encoding.md R47). -/
theorem transact_of_illegalWord {c : Word32} (hc : IllegalWord tw c) (w : Word32) (x : Regs tw) :
    transact c w x = illegalCommand x := by
  obtain ⟨e, he⟩ := (decodeCommand_error_iff tw c).mpr hc
  exact transact_of_error x w he

/-- Settles O4: the decoder's rejections opcode by opcode, and the illegal command of a running and of a halted block. -/
theorem illegalWordsAndTheirEffect : Obligations.IllegalWordsAndTheirEffect := by
  intro tw c w x
  refine ⟨not_decodes_iff tw c, .inl (by decide), .inl (by decide), fun hc hrun => ?running, fun hc hhalt => ?halted⟩
  case running =>
    obtain ⟨hhalt, -⟩ | ⟨-, h⟩ := illegalCommand_cases x
    · exact absurd hhalt hrun
    · exact (transact_of_illegalWord hc w x).trans h
  case halted =>
    obtain ⟨-, h⟩ | ⟨hrun, -⟩ := illegalCommand_cases x
    · exact (transact_of_illegalWord hc w x).trans h
    · exact absurd hhalt hrun

end Sys2Proof.Proofs

/-! PROOFS of the family 40_codec.md. Decoding is `m * 256^e / 256^3` and encoding picks the one exponent `e` for which
`x * 256^3 / 256^e` is in the range of a normal mantissa; the laws of R52 to R62 follow from these two forms. -/

namespace Sys2Proof.Proofs

open Sys2Proof.Machine Sys2Proof.Laws

variable {tw : Nat}

/- The magnitude a word decodes to (40_codec.md R51). -/

/-- Shifting up by `i` bytes and then down by `j`, as the one shift that the model's definitions pick. -/
theorem mul_pow_div_pow (a i j : Nat) :
    a * 256 ^ i / 256 ^ j = if i ≤ j then a / 256 ^ (j - i) else a * 256 ^ (i - j) := by
  split
  next h =>
    have hpos : 0 < 256 ^ i := by positivity
    rw [← Nat.mul_div_mul_right a (256 ^ (j - i)) hpos, pow_sub_mul_pow _ h]
  next h =>
    rw [← pow_sub_mul_pow 256 (Nat.le_of_not_le h), ← Nat.mul_assoc, Nat.mul_div_cancel _ (by positivity)]

theorem compactMag_eq_fields (c : Word32) : compactMag c = field c 22 0 * 256 ^ field c 31 24 / 256 ^ 3 := by
  rw [mul_pow_div_pow, compactMag]

theorem decodedMag_eq_fields (c : Word32) :
    decodedMag c = mantissaField c * 256 ^ exponentField c / 256 ^ 3 := by
  rw [decodedMag_eq_compactMag, compactMag_eq_fields, field_mantissa, field_exponent]

theorem field_mantissa_lt (c : Word32) : field c 22 0 < 2 ^ 23 := by
  rw [field_mantissa]
  exact mantissaField_lt c

theorem field_exponent_le (c : Word32) : field c 31 24 ≤ 255 := by
  rw [field_exponent]
  exact Nat.le_of_lt_succ (exponentField_lt c)

/-- No word decodes to a magnitude that needs more than 2039 bits (40_codec.md R52). -/
theorem compactMag_lt (c : Word32) : compactMag c < 2 ^ 2048 := by
  rw [compactMag_eq_fields, Nat.div_lt_iff_lt_mul (by norm_num)]
  calc field c 22 0 * 256 ^ field c 31 24
      ≤ 2 ^ 23 * 256 ^ 255 :=
        Nat.mul_le_mul (field_mantissa_lt c).le (Nat.pow_le_pow_right (by norm_num) (field_exponent_le c))
    _ < 256 ^ 4 * 256 ^ 255 := Nat.mul_lt_mul_of_pos_right (by norm_num) (by positivity)
    _ = 2 ^ 2048 * 256 ^ 3 := by
      rw [show (256 : Nat) = 2 ^ 8 from rfl, ← pow_mul, ← pow_mul, ← pow_mul, ← pow_add, ← pow_add]

theorem compactMag_of_zero_mantissa {c : Word32} (h : field c 22 0 = 0) : compactMag c = 0 := by
  simp [compactMag_eq_fields, h]

/-- The fields of a word that overflows 256 bits: the boundary exponents are 33 and 34 (40_codec.md R52). -/
theorem overflows_256_iff (c : Word32) :
    2 ^ 256 ≤ compactMag c ↔
      field c 22 0 ≠ 0 ∧ (35 ≤ field c 31 24 ∨ (field c 31 24 = 34 ∧ 0xff < field c 22 0)
        ∨ (field c 31 24 = 33 ∧ 0xffff < field c 22 0)) := by
  have hm := field_mantissa_lt c
  rw [compactMag_eq_fields, Nat.le_div_iff_mul_le (by norm_num)]
  generalize field c 22 0 = m at *
  generalize field c 31 24 = e at *
  obtain he | rfl | rfl | he : e ≤ 32 ∨ e = 33 ∨ e = 34 ∨ 35 ≤ e := by omega
  · have hpow : m * 256 ^ e ≤ m * 256 ^ 32 := Nat.mul_le_mul_left m (Nat.pow_le_pow_right (by norm_num) he)
    omega
  · omega
  · omega
  · have hpow : m * 256 ^ 35 ≤ m * 256 ^ e := Nat.mul_le_mul_left m (Nat.pow_le_pow_right (by norm_num) he)
    obtain rfl | hpos : m = 0 ∨ 1 ≤ m := by omega
    · simp
    · omega

/-- The fields of a word that decodes to 0 (40_codec.md R53). -/
theorem compactMag_eq_zero_iff (c : Word32) :
    compactMag c = 0 ↔
      field c 22 0 = 0 ∨ field c 31 24 = 0 ∨ (field c 31 24 = 1 ∧ field c 22 0 < 0x010000)
        ∨ (field c 31 24 = 2 ∧ field c 22 0 < 0x000100) := by
  have hm := field_mantissa_lt c
  rw [compactMag_eq_fields, Nat.div_eq_zero_iff_lt (by norm_num)]
  generalize field c 22 0 = m at *
  generalize field c 31 24 = e at *
  obtain rfl | rfl | rfl | he : e = 0 ∨ e = 1 ∨ e = 2 ∨ 3 ≤ e := by omega
  · omega
  · omega
  · omega
  · have hpow : m * 256 ^ 3 ≤ m * 256 ^ e := Nat.mul_le_mul_left m (Nat.pow_le_pow_right (by norm_num) he)
    obtain rfl | hpos : m = 0 ∨ 1 ≤ m := by omega
    · simp
    · omega

/-- A decoded magnitude is a mantissa before or after a shift by whole bytes (40_codec.md R58). -/
theorem decodedMag_shape (c : Word32) : ∃ m d, m < 2 ^ 23 ∧ decodedMag c = m * 256 ^ d := by
  have hm := mantissaField_lt c
  rw [decodedMag_eq_fields, mul_pow_div_pow]
  split
  next => exact ⟨_, 0, (Nat.div_le_self _ _).trans_lt hm, (Nat.mul_one _).symm⟩
  next => exact ⟨_, _, hm, rfl⟩

/- The word a magnitude is encoded as (40_codec.md R54). -/

theorem topThreeBytes_eq_div (x : Nat) : topThreeBytes x = x * 256 ^ 3 / 256 ^ byteLength x := by
  rw [topThreeBytes_eq, mul_pow_div_pow]
  generalize byteLength x = n
  obtain h | rfl | h : n < 3 ∨ n = 3 ∨ 3 < n := by omega
  · rw [if_pos h.le, if_neg (by omega)]
  · simp
  · rw [if_neg (by omega), if_pos h.le]

/-- The mantissa is the same shift of the magnitude whether the fix-up fires or not (40_codec.md R54). -/
theorem packedMantissa_eq_div (x : Nat) : packedMantissa x = x * 256 ^ 3 / 256 ^ packedExponent x := by
  unfold packedMantissa packedExponent
  split
  next => rw [topThreeBytes_eq_div, Nat.shiftRight_eq_div_pow, Nat.div_div_eq_div_mul, pow_succ 256 (byteLength x)]
  next => exact topThreeBytes_eq_div x

/-- The mantissa's range as bounds on the magnitude: they leave one exponent (40_codec.md R54, R61). -/
theorem packedExponent_range {x : Nat} (h : x ≠ 0) :
    2 ^ 15 * 256 ^ packedExponent x ≤ x * 256 ^ 3 ∧ x * 256 ^ 3 < 2 ^ 23 * 256 ^ packedExponent x := by
  obtain ⟨lo, hi⟩ := packedMantissa_range h
  rw [packedMantissa_eq_div] at lo hi
  exact ⟨(Nat.le_div_iff_mul_le (by positivity)).mp lo,
    (Nat.div_lt_iff_lt_mul (by positivity)).mp hi⟩

/-- Ranges of a factor of 256 over two exponents can meet only if the exponents are in order. -/
theorem exponent_le_of_ranges {v i j : Nat} (lo : 2 ^ 15 * 256 ^ i ≤ v) (hi : v < 2 ^ 23 * 256 ^ j) : i ≤ j := by
  have h : 2 ^ 15 * 256 ^ i < 2 ^ 15 * 256 ^ (j + 1) := by
    rw [pow_succ]
    omega
  exact Nat.le_of_lt_succ ((Nat.pow_lt_pow_iff_right (by norm_num)).mp (Nat.lt_of_mul_lt_mul_left h))

@[simp] theorem packedExponent_zero : packedExponent 0 = 0 := rfl

theorem packedExponent_le {x e : Nat} (hi : x * 256 ^ 3 < 2 ^ 23 * 256 ^ e) : packedExponent x ≤ e := by
  by_cases h : x = 0
  · simp [h]
  · exact exponent_le_of_ranges (packedExponent_range h).1 hi

theorem packedExponent_eq {x e : Nat} (lo : 2 ^ 15 * 256 ^ e ≤ x * 256 ^ 3) (hi : x * 256 ^ 3 < 2 ^ 23 * 256 ^ e) :
    packedExponent x = e := by
  have h : x ≠ 0 := by
    rintro rfl
    have hpos : 0 < 256 ^ e := by positivity
    omega
  exact le_antisymm (packedExponent_le hi) (exponent_le_of_ranges lo (packedExponent_range h).2)

/-- When the exponent does not fit its field (40_codec.md R55). -/
theorem encodeCompact_eq_none_iff (s : BitVec 1) (x : Nat) : encodeCompact s x = none ↔ 255 < packedExponent x := by
  unfold encodeCompact
  split
  next h => simp [h]
  next =>
    split
    next h => exact iff_of_true rfl h
    next h => exact iff_of_false (Option.some_ne_none _) h

/-- The fields of the word that `encode` answers (40_codec.md R54). -/
theorem fields_of_encodeCompact {s : BitVec 1} {x : Nat} {c : Word32} (hx : x ≠ 0) (h : encodeCompact s x = some c) :
    exponentField c = packedExponent x ∧ signField c = s ∧ mantissaField c = packedMantissa x := by
  have he : packedExponent x ≤ 255 := by
    refine Nat.le_of_not_lt fun hlt => ?_
    rw [(encodeCompact_eq_none_iff s x).mpr hlt] at h
    cases h
  obtain ⟨d, hd, hfields⟩ := encodeCompact_some (s := s) hx he
  obtain rfl : c = d := Option.some.inj (h.symm.trans hd)
  exact hfields

theorem eq_zero_of_encodeCompact_zero {s : BitVec 1} {c : Word32} (h : encodeCompact s 0 = some c) : c = 0 :=
  (Option.some.inj ((encodeCompact_zero s).symm.trans h)).symm

/-- The leading base-256 digit decides the fix-up (40_codec.md R54). -/
theorem topThreeBytes_div (x : Nat) : topThreeBytes x / 256 ^ 2 = byteDigit x (byteLength x - 1) := by
  by_cases h : x = 0
  · simp [h, byteDigit, topThreeBytes]
  · have hdigit : x / 256 ^ (byteLength x - 1) < 256 := by
      rw [Nat.div_lt_iff_lt_mul (by positivity), Nat.mul_comm, ← pow_succ,
        Nat.sub_add_cancel (byteLength_pos h)]
      exact lt_pow_byteLength x
    rw [byteDigit, Nat.mod_eq_of_lt hdigit, topThreeBytes_eq_div, Nat.div_div_eq_div_mul]
    have hpow : 256 ^ byteLength x * 256 ^ 2 = 256 ^ (byteLength x - 1) * 256 ^ 3 := by
      rw [← pow_add, ← pow_add]
      congr 1
      have := byteLength_pos h
      omega
    rw [hpow, Nat.mul_div_mul_right _ _ (by norm_num)]

/-- The exponent in the terms of 40_codec.md R55 and R60: one more than the byte length when the top byte is `0x80` or
more. -/
theorem packedExponent_eq_of_topByte {x : Nat} (h : x ≠ 0) :
    packedExponent x = if byteDigit x (byteLength x - 1) < 0x80 then byteLength x else byteLength x + 1 := by
  have htop := topThreeBytes_div x
  unfold packedExponent
  split
  next hf =>
    have := (needsFixUp_iff h).mp hf
    rw [if_neg (by omega)]
  next hf =>
    have := mt (needsFixUp_iff h).mpr hf
    rw [if_pos (by omega)]

/- The two round trips (40_codec.md R59 to R61). -/

/-- Decoding an encoded magnitude clears the bytes below the mantissa (40_codec.md R60). -/
theorem decodedMag_of_encodeCompact {s : BitVec 1} {x : Nat} {c : Word32} (h : encodeCompact s x = some c) :
    decodedMag c = x - x % 256 ^ (packedExponent x - 3) := by
  by_cases hx : x = 0
  · subst hx
    rw [eq_zero_of_encodeCompact_zero h]
    exact congrArg Target.mag decodeCompact_zero
  · obtain ⟨he, -, hm⟩ := fields_of_encodeCompact hx h
    rw [decodedMag_eq_fields, he, hm, packedMantissa_eq_div]
    generalize packedExponent x = e
    obtain h3 | h3 := Nat.le_total e 3
    · have hdvd : 256 ^ e ∣ x * 256 ^ 3 := (pow_dvd_pow 256 h3).mul_left x
      rw [Nat.div_mul_cancel hdvd, Nat.mul_div_cancel _ (by norm_num), Nat.sub_eq_zero_of_le h3]
      simp [Nat.mod_one]
    · have hdiv : x * 256 ^ 3 / 256 ^ e = x / 256 ^ (e - 3) := by rw [mul_pow_div_pow, if_pos h3]
      rw [hdiv, ← pow_sub_mul_pow 256 h3, ← Nat.mul_assoc, Nat.mul_div_cancel _ (by norm_num),
        Nat.div_mul_self_eq_mod_sub_self]

theorem mul_decodedMag_lt (c : Word32) : decodedMag c * 256 ^ 3 < 2 ^ 23 * 256 ^ exponentField c := by
  rw [decodedMag_eq_fields]
  exact (Nat.div_mul_le_self _ _).trans_lt
    (Nat.mul_lt_mul_of_pos_right (mantissaField_lt c) (by positivity))

/-- Encoding a decoded magnitude needs no larger exponent than the word had. -/
theorem packedExponent_decodedMag_le (c : Word32) : packedExponent (decodedMag c) ≤ exponentField c :=
  packedExponent_le (mul_decodedMag_lt c)

/-- So the bytes that encoding drops of a decoded magnitude are zero. -/
theorem decodedMag_mod_eq_zero (c : Word32) : decodedMag c % 256 ^ (packedExponent (decodedMag c) - 3) = 0 := by
  have hle := packedExponent_decodedMag_le c
  obtain h3 | h3 := Nat.le_total (exponentField c) 3
  · rw [Nat.sub_eq_zero_of_le (hle.trans h3)]
    exact Nat.mod_one _
  · have hdvd : 256 ^ (exponentField c - 3) ∣ decodedMag c := by
      rw [decodedMag_eq_fields, ← pow_sub_mul_pow 256 h3, ← Nat.mul_assoc, Nat.mul_div_cancel _ (by norm_num)]
      exact Nat.dvd_mul_left _ _
    exact Nat.mod_eq_zero_of_dvd ((pow_dvd_pow 256 (Nat.sub_le_sub_right hle 3)).trans hdvd)

/-- A decoded magnitude can be encoded, at any sign, and decodes to itself again (40_codec.md R59). -/
theorem encodeCompact_decodedMag (s : BitVec 1) (c : Word32) :
    ∃ d, encodeCompact s (decodedMag c) = some d ∧ decodedMag d = decodedMag c := by
  have hle := packedExponent_decodedMag_le c
  have hlt := exponentField_lt c
  cases h : encodeCompact s (decodedMag c) with
  | none =>
    have := (encodeCompact_eq_none_iff s _).mp h
    omega
  | some d => exact ⟨d, rfl, by rw [decodedMag_of_encodeCompact h, decodedMag_mod_eq_zero, Nat.sub_zero]⟩

/-- Every word that `encode` answers is canonical (40_codec.md R61). -/
theorem canonical_of_encodeCompact {s : BitVec 1} {x : Nat} {c : Word32} (h : encodeCompact s x = some c) :
    Canonical c := by
  by_cases hx : x = 0
  · subst hx
    exact .inl (eq_zero_of_encodeCompact_zero h)
  · obtain ⟨he, -, hm⟩ := fields_of_encodeCompact hx h
    refine .inr ⟨?_, ?_, ?_⟩
    · rw [he]
      exact (byteLength_pos hx).trans (packedExponent_bounds x).1
    · rw [hm]
      exact (packedMantissa_range hx).1
    · rw [he, hm, packedMantissa_eq_div, pow_mul]
      generalize packedExponent x = e
      obtain h3 | h3 := Nat.le_total e 3
      · rw [← pow_sub_mul_pow 256 h3, ← Nat.mul_assoc, Nat.mul_div_cancel _ (by positivity)]
        exact Nat.mul_mod_left _ _
      · rw [Nat.sub_eq_zero_of_le h3]
        exact Nat.mod_one _

/-- Decoding a canonical word drops no bit of its mantissa (40_codec.md R59). -/
theorem mul_decodedMag_of_low_bits_zero {c : Word32}
    (h : mantissaField c % 2 ^ (8 * (3 - exponentField c)) = 0) :
    decodedMag c * 256 ^ 3 = mantissaField c * 256 ^ exponentField c := by
  rw [decodedMag_eq_fields, Nat.div_mul_cancel]
  obtain h3 | h3 := Nat.le_total (exponentField c) 3
  · rw [← pow_sub_mul_pow 256 h3]
    rw [pow_mul] at h
    exact Nat.mul_dvd_mul_right (Nat.dvd_of_mod_eq_zero h) _
  · exact (pow_dvd_pow 256 h3).mul_left _

/-- The target that the commands that decode leave in `TS`, `TM` for a canonical word is encoded as that word
(40_codec.md R53, R59). -/
theorem encodeCompact_of_canonical {c : Word32} (h : Canonical c) :
    encodeCompact (if decodedMag c = 0 then 0 else signField c) (decodedMag c) = some c := by
  obtain rfl | ⟨-, hlo, hlow⟩ := h
  · have hmag : decodedMag 0 = 0 := congrArg Target.mag decodeCompact_zero
    rw [hmag]
    rfl
  · have hmul := mul_decodedMag_of_low_bits_zero hlow
    have hpos : 0 < 256 ^ exponentField c := by positivity
    have hne : decodedMag c ≠ 0 := by
      intro h0
      rw [h0, Nat.zero_mul] at hmul
      have := Nat.mul_pos (show 0 < mantissaField c by omega) hpos
      omega
    have hexp : packedExponent (decodedMag c) = exponentField c :=
      packedExponent_eq (hmul ▸ Nat.mul_le_mul_right _ hlo) (mul_decodedMag_lt c)
    have hmant : packedMantissa (decodedMag c) = mantissaField c := by
      rw [packedMantissa_eq_div, hexp, hmul, Nat.mul_div_cancel _ hpos]
    rw [if_neg hne]
    obtain ⟨d, hd, -⟩ := encodeCompact_decodedMag (signField c) c
    obtain ⟨he, hs, hm⟩ := fields_of_encodeCompact hne hd
    rw [hd, compact_ext (he.trans hexp) hs (hm.trans hmant)]

/- Sign symmetry (40_codec.md R62). -/

/-- Inverting bit 23 of a word inverts its sign field. -/
theorem signField_flip (c : Word32) : signField (c ^^^ 0x00800000#32) = signField c ^^^ 1#1 := by
  rw [signField, BitVec.extractLsb'_xor]
  rfl

/-- Inverting bit 23 of a word leaves its exponent and its mantissa. -/
theorem decodedMag_flip (c : Word32) : decodedMag (c ^^^ 0x00800000#32) = decodedMag c := by
  have he : exponentField (c ^^^ 0x00800000#32) = exponentField c := by
    rw [exponentField, BitVec.extractLsb'_xor, show (0x00800000#32).extractLsb' 24 8 = 0#8 from rfl, BitVec.xor_zero]
    rfl
  have hm : mantissaField (c ^^^ 0x00800000#32) = mantissaField c := by
    rw [mantissaField, BitVec.extractLsb'_xor, show (0x00800000#32).extractLsb' 0 23 = 0#23 from rfl, BitVec.xor_zero]
    rfl
  rw [decodedMag_eq_fields, decodedMag_eq_fields, he, hm]

theorem targetValue_flip (s : BitVec 1) (mag : Nat) :
    targetValue { sign := s ^^^ 1#1, mag := mag } = -targetValue { sign := s, mag := mag } := by
  obtain rfl | rfl : s = 0 ∨ s = 1 := by
    revert s
    decide
  · simp [targetValue]
  · simp [targetValue]

/-- A set sign bit adds `2^23` to the word, whatever the other fields are. -/
theorem pack_negative (e : BitVec 8) (m : BitVec 23) :
    (show Word32 from e ++ 1#1 ++ m) = (show Word32 from e ++ 0#1 ++ m) + 0x00800000#32 := by
  have := e.isLt
  have := m.isLt
  apply BitVec.eq_of_toNat_eq
  rw [BitVec.toNat_add, toNat_pack, toNat_pack]
  simp only [BitVec.toNat_ofNat]
  omega

theorem encodeCompact_negative {mag : Nat} (h : mag ≠ 0) :
    encodeCompact 1 mag = (encodeCompact 0 mag).map fun c => c + 0x00800000#32 := by
  unfold encodeCompact
  rw [if_neg h, if_neg h]
  split
  next => rfl
  next => exact congrArg some (pack_negative _ _)

/-- Settles O28: inverting bit 23 is inverting the sign field alone, in decoding and in encoding. -/
theorem signSymmetryOfTheCodec : Obligations.SignSymmetryOfTheCodec := by
  refine ⟨fun c => ⟨decodedMag_flip c, fun _ => ?sign, ?value⟩, fun _ => encodeCompact_negative⟩
  case sign =>
    rw [decodeCompact_sign, decodeCompact_sign, signField_flip]
    generalize signField c = s
    revert s
    decide
  case value =>
    rw [decodeCompact, signField_flip, decodedMag_flip]
    exact targetValue_flip _ _

/- The commands `DEC`, `WRKC` and `ENC` on a block that is not halted (40_codec.md R56, R57; 41_work.md R69). -/

theorem transact_dec_of_running {x : Regs tw} (w : Word32) (hf : x.sr.fatal ≠ 1) :
    transact 0x10000000#32 w x = if 2 ^ tw ≤ compactMag x.cb then raiseFatal .decOverflow x
      else respond 0 (writeTarget (decodeCompact x.cb) x) := by
  rw [← decodedMag_eq_compactMag]
  obtain ⟨hhalt, -⟩ | ⟨-, hov, heq⟩ | ⟨-, hfits, heq⟩ := decReply_cases x
  · exact absurd hhalt hf
  · exact heq.trans (if_pos hov).symm
  · exact heq.trans (if_neg (Nat.not_le.mpr hfits)).symm

theorem transact_wrkc_of_running {x : Regs tw} (w : Word32) (hf : x.sr.fatal ≠ 1) :
    transact 0x21000000#32 w x = if 2 ^ tw ≤ compactMag x.cb then raiseFatal .decOverflow x
      else respond 0 (writeWork (writeTarget (decodeCompact x.cb) x)) := by
  rw [← decodedMag_eq_compactMag]
  obtain ⟨hhalt, -⟩ | ⟨-, hov, heq⟩ | ⟨-, hfits, heq⟩ := wrkcReply_cases x
  · exact absurd hhalt hf
  · exact heq.trans (if_pos hov).symm
  · exact heq.trans (if_neg (Nat.not_le.mpr hfits)).symm

theorem transact_dec_of_fits {x : Regs tw} (w : Word32) (hf : x.sr.fatal ≠ 1) (h : compactMag x.cb < 2 ^ tw) :
    transact 0x10000000#32 w x = respond 0 (writeTarget (decodeCompact x.cb) x) :=
  (transact_dec_of_running w hf).trans (if_neg (Nat.not_le.mpr h))

theorem transact_wrkc_of_fits {x : Regs tw} (w : Word32) (hf : x.sr.fatal ≠ 1) (h : compactMag x.cb < 2 ^ tw) :
    transact 0x21000000#32 w x = respond 0 (writeWork (writeTarget (decodeCompact x.cb) x)) :=
  (transact_wrkc_of_running w hf).trans (if_neg (Nat.not_le.mpr h))

theorem transact_enc_of_some {x : Regs tw} {c : Word32} (w : Word32) (hf : x.sr.fatal ≠ 1)
    (h : encodeCompact x.ts x.tm.toNat = some c) : transact 0x11000000#32 w x = respond 0 { x with cb := c } := by
  obtain ⟨hhalt, -⟩ | ⟨-, hnone, -⟩ | ⟨-, d, hsome, heq⟩ := encReply_cases x
  · exact absurd hhalt hf
  · exact absurd (hnone.symm.trans h) (Option.some_ne_none c).symm
  · obtain rfl : c = d := Option.some.inj (h.symm.trans hsome)
    exact heq

theorem transact_enc_of_none {x : Regs tw} (w : Word32) (hf : x.sr.fatal ≠ 1)
    (h : encodeCompact x.ts x.tm.toNat = none) : transact 0x11000000#32 w x = raiseFatal .encOverflow x := by
  obtain ⟨hhalt, -⟩ | ⟨-, -, heq⟩ | ⟨-, d, hsome, -⟩ := encReply_cases x
  · exact absurd hhalt hf
  · exact heq
  · exact absurd (h.symm.trans hsome) (Option.some_ne_none d).symm

/-- An `ENC` that leaves the block running wrote a word. -/
theorem encodeCompact_some_of_running {x : Regs tw} {w : Word32} (hf : x.sr.fatal ≠ 1)
    (h : (transact 0x11000000#32 w x).regs.sr.fatal ≠ 1) : ∃ c, encodeCompact x.ts x.tm.toNat = some c := by
  cases hc : encodeCompact x.ts x.tm.toNat with
  | none =>
    rw [transact_enc_of_none w hf hc] at h
    exact absurd rfl h
  | some c => exact ⟨c, rfl⟩

/-- What a fitting decode leaves in `TM`. -/
theorem writeTarget_tm_toNat (x : Regs tw) {c : Word32} (h : compactMag c < 2 ^ tw) :
    (writeTarget (decodeCompact c) x).tm.toNat = decodedMag c := by
  rw [← decodedMag_eq_compactMag] at h
  exact (BitVec.toNat_ofNat _ _).trans (Nat.mod_eq_of_lt h)

/-- The target registers after `DEC` and after `WRKC` are those of the decoded target. -/
theorem transact_target_of_fits {x : Regs tw} (w : Word32) (hf : x.sr.fatal ≠ 1) (h : compactMag x.cb < 2 ^ tw)
    {c : Word32} (hc : c ∈ [0x10000000#32, 0x21000000#32]) :
    (transact c w x).regs.ts = (writeTarget (decodeCompact x.cb) x).ts
      ∧ (transact c w x).regs.tm = (writeTarget (decodeCompact x.cb) x).tm := by
  simp only [List.mem_cons, List.not_mem_nil, or_false] at hc
  obtain rfl | rfl := hc
  · rw [transact_dec_of_fits w hf h]
    exact ⟨rfl, rfl⟩
  · rw [transact_wrkc_of_fits w hf h]
    exact ⟨rfl, rfl⟩

/-- Settles O20: the two commands that decode fault on an overflow and keep `SR` otherwise; the rest are bounds. -/
theorem decodeOverflowFaults : Obligations.DecodeOverflowFaults := by
  refine ⟨fun tw w x hf c hc => ?command, overflows_256_iff, fun _ => compactMag_of_zero_mantissa, compactMag_lt⟩
  simp only [List.mem_cons, List.not_mem_nil, or_false] at hc
  obtain rfl | rfl := hc
  · exact ⟨fun h => (transact_dec_of_running w hf).trans (if_pos h),
      fun h => congrArg (fun a => a.regs.sr) (transact_dec_of_fits w hf h)⟩
  · exact ⟨fun h => (transact_wrkc_of_running w hf).trans (if_pos h),
      fun h => congrArg (fun a => a.regs.sr) (transact_wrkc_of_fits w hf h)⟩

/-- Settles O21: `TS` takes 0 exactly when the magnitude is 0, and a fitting magnitude is 0 exactly when `TM` is. -/
theorem decodedZeroHasNoSign : Obligations.DecodedZeroHasNoSign := by
  refine ⟨compactMag_eq_zero_iff, fun tw w x hf c hc => ⟨fun hzero => ?zero, fun hfits => ?never⟩⟩
  case zero =>
    have hfits : compactMag x.cb < 2 ^ tw := hzero ▸ Nat.two_pow_pos tw
    obtain ⟨hts, htm⟩ := transact_target_of_fits w hf hfits hc
    rw [← decodedMag_eq_compactMag] at hzero
    rw [hts, htm]
    simp [hzero]
  case never =>
    obtain ⟨hts, htm⟩ := transact_target_of_fits w hf hfits hc
    rw [hts, htm]
    rintro ⟨hsign, hmag⟩
    have hzero := congrArg BitVec.toNat hmag
    rw [writeTarget_tm_toNat x hfits] at hzero
    rw [writeTarget_ts, decodeCompact_mag, if_pos (by simpa using hzero)] at hsign
    cases hsign

/-- A target register of a legal width is a whole number of bytes (00_scope.md R4). -/
theorem tm_lt_pow_bytes (x : Regs tw) (h : Config.LegalWidth tw) : x.tm.toNat < 256 ^ (tw / 8) := by
  obtain ⟨hdvd, -, -⟩ := h
  have hbytes : 8 * (tw / 8) = tw := by omega
  rw [show (256 : Nat) = 2 ^ 8 from rfl, ← pow_mul, hbytes]
  exact x.tm.isLt

theorem byteLength_le_of_lt {x n : Nat} (hx : x < 256 ^ n) : byteLength x ≤ n := by
  by_cases h : x = 0
  · simp [h]
  · have := (Nat.pow_lt_pow_iff_right (by norm_num)).mp ((pow_pred_byteLength_le h).trans_lt hx)
    omega

/-- The magnitudes that cannot be encoded, in the terms of 40_codec.md R55. -/
theorem packedExponent_overflow_iff {x : Nat} (h : byteLength x ≤ 256) :
    255 < packedExponent x ↔ byteLength x = 256 ∨ (byteLength x = 255 ∧ 0x80 ≤ byteDigit x 254) := by
  by_cases hx : x = 0
  · simp [hx]
  · have hle := (packedExponent_bounds x).1
    have hge := (packedExponent_bounds x).2
    by_cases h255 : byteLength x = 255
    · have htop := packedExponent_eq_of_topByte hx
      rw [h255, show 255 - 1 = 254 from rfl] at htop
      rw [htop]
      split <;> omega
    · omega

theorem transact_enc_sr_of_fits {x : Regs tw} (w : Word32) (hf : x.sr.fatal ≠ 1)
    (h : packedExponent x.tm.toNat ≤ 255) : (transact 0x11000000#32 w x).regs.sr = x.sr := by
  cases hc : encodeCompact x.ts x.tm.toNat with
  | none => exact absurd ((encodeCompact_eq_none_iff _ _).mp hc) (Nat.not_lt.mpr h)
  | some c => exact congrArg (fun a => a.regs.sr) (transact_enc_of_some w hf hc)

/-- The exponent that `encode` writes, for any magnitude: 0 for the zero word. -/
theorem exponentField_of_encodeCompact {s : BitVec 1} {x : Nat} {c : Word32} (h : encodeCompact s x = some c) :
    exponentField c = packedExponent x := by
  by_cases hx : x = 0
  · subst hx
    rw [eq_zero_of_encodeCompact_zero h]
    rfl
  · exact (fields_of_encodeCompact hx h).1

/-- Settles O23: `encode` overflows exactly when its exponent exceeds 255, and the exponent is at most one more than the
number of bytes of `TM`. -/
theorem encodeOverflowNeedsAWideTarget : Obligations.EncodeOverflowNeedsAWideTarget := by
  intro tw w x hw hf
  have hmax : tw ≤ 2048 := hw.2.2
  have hlt := tm_lt_pow_bytes x hw
  have hexp := packedExponent_le_of_lt hlt
  have hiff := packedExponent_overflow_iff ((byteLength_le_of_lt hlt).trans (show tw / 8 ≤ 256 by omega))
  refine ⟨fun h => ?overflow, fun h => ?fits, fun h => ?narrow, fun h => ?exponent⟩
  case overflow => exact transact_enc_of_none w hf ((encodeCompact_eq_none_iff _ _).mpr (hiff.mpr h))
  case fits => exact transact_enc_sr_of_fits w hf (Nat.not_lt.mp (mt hiff.mp h))
  case narrow => exact transact_enc_sr_of_fits w hf (by omega)
  case exponent =>
    cases hc : encodeCompact x.ts x.tm.toNat with
    | none =>
      have := (encodeCompact_eq_none_iff _ _).mp hc
      omega
    | some c =>
      rw [transact_enc_of_some w hf hc, respond_regs, field_exponent, exponentField_of_encodeCompact hc]
      omega

/-- Settles O24: what `DEC` leaves in `TM` is the decoded magnitude, a mantissa shifted by whole bytes. -/
theorem shapeOfADecodedTarget : Obligations.ShapeOfADecodedTarget := by
  intro tw w x hf h
  rw [transact_dec_of_fits w hf h, respond_regs, writeTarget_tm_toNat x h]
  exact decodedMag_shape x.cb

/-- Two targets of one magnitude, and of one sign where it is not 0, are the same number. -/
theorem targetValue_congr {t u : Target} (hmag : t.mag = u.mag) (hsign : u.mag ≠ 0 → t.sign = u.sign) :
    targetValue t = targetValue u := by
  unfold targetValue
  by_cases h : u.mag = 0
  · simp [hmag, h]
  · rw [hmag, hsign h]

/-- `DEC` then `ENC` on a word that fits: `CB` takes the encoding of the decoded target, and nothing halts
(40_codec.md R59). -/
theorem dec_enc_of_fits {x : Regs tw} (w w' : Word32) (hf : x.sr.fatal ≠ 1) (h : compactMag x.cb < 2 ^ tw) :
    ∃ d, encodeCompact (if decodedMag x.cb = 0 then 0 else signField x.cb) (decodedMag x.cb) = some d
      ∧ (transact 0x11000000#32 w' (transact 0x10000000#32 w x).regs).regs.sr = x.sr
      ∧ (transact 0x11000000#32 w' (transact 0x10000000#32 w x).regs).regs.cb = d
      ∧ decodedMag d = decodedMag x.cb := by
  obtain ⟨d, hd, hmag⟩ := encodeCompact_decodedMag (if decodedMag x.cb = 0 then 0 else signField x.cb) x.cb
  have henc : encodeCompact (writeTarget (decodeCompact x.cb) x).ts (writeTarget (decodeCompact x.cb) x).tm.toNat
      = some d := by
    rw [writeTarget_tm_toNat x h]
    exact hd
  have hrun : (writeTarget (decodeCompact x.cb) x).sr.fatal ≠ 1 := hf
  rw [transact_dec_of_fits w hf h, respond_regs, transact_enc_of_some w' hrun henc]
  exact ⟨d, hd, rfl, rfl, hmag⟩

/-- Settles O25: a word that comes back was written by `ENC`, hence is canonical, and a canonical word is the encoding
of its target. -/
theorem decThenEncKeepsCanonicalWords : Obligations.DecThenEncKeepsCanonicalWords := by
  intro tw w w' x _ hf h y
  obtain ⟨d, hd, hsr, hcb, hmag⟩ := dec_enc_of_fits w w' hf h
  change y.sr = x.sr at hsr
  change y.cb = d at hcb
  rw [hsr, hcb]
  refine ⟨hf, ⟨?back, ?canonical⟩, targetValue_congr hmag fun hne => ?sign⟩
  case back =>
    rintro rfl
    exact canonical_of_encodeCompact hd
  case canonical => exact fun hcan => Option.some.inj (hd.symm.trans (encodeCompact_of_canonical hcan))
  case sign =>
    rw [decodeCompact_mag] at hne
    rw [if_neg hne] at hd
    exact (fields_of_encodeCompact hne hd).2.1

/-- Encoding never rounds up, so what it writes decodes to a magnitude that fits again (40_codec.md R60). -/
theorem compactMag_of_encodeCompact_lt {s : BitVec 1} {t : BitVec tw} {c : Word32}
    (h : encodeCompact s t.toNat = some c) : compactMag c < 2 ^ tw := by
  rw [← decodedMag_eq_compactMag, decodedMag_of_encodeCompact h]
  exact (Nat.sub_le _ _).trans_lt t.isLt

/-- The truncation keeps the top byte, so a magnitude that is not 0 does not become 0. -/
theorem decodedMag_of_encodeCompact_ne_zero {s : BitVec 1} {x : Nat} {c : Word32} (hx : x ≠ 0)
    (h : encodeCompact s x = some c) : decodedMag c ≠ 0 := by
  have hexp := (packedExponent_bounds x).2
  have hpos : 0 < 256 ^ (packedExponent x - 3) := by positivity
  have hmod := Nat.mod_lt x hpos
  have htop : 256 ^ (packedExponent x - 3) ≤ x :=
    (Nat.pow_le_pow_right (by norm_num) (by omega)).trans (pow_pred_byteLength_le hx)
  rw [decodedMag_of_encodeCompact h]
  omega

/-- The bytes that the exponent makes `encode` drop are the ones below the top 3, or the top 2 after the fix-up
(40_codec.md R60). -/
theorem packedExponent_sub_three {x : Nat} (hx : x ≠ 0) :
    packedExponent x - 3 = byteLength x - if byteDigit x (byteLength x - 1) < 0x80 then 3 else 2 := by
  rw [packedExponent_eq_of_topByte hx]
  split
  next => rfl
  next => exact Nat.add_sub_add_right _ 1 2

/-- A magnitude below `2^23` loses no byte (40_codec.md R60). -/
theorem packedExponent_sub_three_of_lt {x : Nat} (h : x < 2 ^ 23) : packedExponent x - 3 = 0 :=
  Nat.sub_eq_zero_of_le (packedExponent_le (Nat.mul_lt_mul_of_pos_right h (by norm_num)))

/-- `ENC` then `DEC` on a target that can be encoded: the target of the word that `ENC` writes (40_codec.md R60). -/
theorem enc_dec_of_some {x : Regs tw} {c : Word32} (w w' : Word32) (hf : x.sr.fatal ≠ 1)
    (h : encodeCompact x.ts x.tm.toNat = some c) :
    (transact 0x10000000#32 w' (transact 0x11000000#32 w x).regs).regs
      = writeTarget (decodeCompact c) { x with cb := c } := by
  rw [transact_enc_of_some w hf h, respond_regs, transact_dec_of_fits (x := { x with cb := c }) w' hf
    (compactMag_of_encodeCompact_lt h), respond_regs]

/-- `ENC` then `DEC` on a target register that is not 0: the sign stays and the dropped bytes are cleared
(40_codec.md R60). -/
theorem enc_dec_target {x : Regs tw} {w : Word32} (w' : Word32) (hf : x.sr.fatal ≠ 1) (htm : x.tm.toNat ≠ 0)
    (hrun : (transact 0x11000000#32 w x).regs.sr.fatal ≠ 1) :
    let y := (transact 0x10000000#32 w' (transact 0x11000000#32 w x).regs).regs
    y.sr = x.sr ∧ y.ts = x.ts
      ∧ y.tm.toNat = x.tm.toNat - x.tm.toNat % 256 ^ (packedExponent x.tm.toNat - 3) := by
  obtain ⟨c, hc⟩ := encodeCompact_some_of_running hf hrun
  intro y
  have hy : y = writeTarget (decodeCompact c) { x with cb := c } := enc_dec_of_some w w' hf hc
  rw [hy]
  refine ⟨rfl, ?sign, ?mag⟩
  case sign =>
    rw [writeTarget_ts, decodeCompact_mag, if_neg (decodedMag_of_encodeCompact_ne_zero htm hc)]
    exact (fields_of_encodeCompact htm hc).2.1
  case mag => rw [writeTarget_tm_toNat _ (compactMag_of_encodeCompact_lt hc), decodedMag_of_encodeCompact hc]

/-- Settles O26: the two commands clear the bytes that the exponent of `ENC` drops, which are none below `2^23`. -/
theorem encThenDecTruncates : Obligations.EncThenDecTruncates := by
  refine ⟨fun tw w w' x hf htm hrun => ?truncates, rfl, rfl⟩
  intro n keep y
  have hne : x.tm.toNat ≠ 0 := fun h0 => htm (BitVec.eq_of_toNat_eq h0)
  obtain ⟨hsr, hts, hmag⟩ := enc_dec_target w' hf hne hrun
  have hexact : y.tm = x.tm ↔ x.tm.toNat % 256 ^ (packedExponent x.tm.toNat - 3) = 0 := by
    have hle := Nat.mod_le x.tm.toNat (256 ^ (packedExponent x.tm.toNat - 3))
    rw [← BitVec.toNat_inj, hmag]
    omega
  have hsmall : x.tm.toNat < 2 ^ 23 → y.tm = x.tm := fun hlt => by
    rw [hexact, packedExponent_sub_three_of_lt hlt]
    exact Nat.mod_one _
  have hkeep : packedExponent x.tm.toNat - 3 = n - keep := packedExponent_sub_three hne
  rw [hkeep] at hmag hexact
  exact ⟨fun h => hf (hsr ▸ h), hts, hmag, hexact, hsmall⟩

/-- The fields of a word that `encode` writes for a magnitude of at most `n` bytes (40_codec.md R61). -/
theorem fieldBounds_of_encodeCompact {s : BitVec 1} {x n : Nat} {c : Word32} (hx : x ≠ 0) (hn : x < 256 ^ n)
    (h : encodeCompact s x = some c) :
    (field c 31 24 = byteLength x ∨ field c 31 24 = byteLength x + 1)
      ∧ 1 ≤ field c 31 24 ∧ field c 31 24 ≤ n + 1
      ∧ field c 23 23 = s.toNat
      ∧ 0x008000 ≤ field c 22 0 ∧ field c 22 0 ≤ 0x7fffff := by
  obtain ⟨he, hs, hm⟩ := fields_of_encodeCompact hx h
  obtain ⟨hlo, hhi⟩ := packedMantissa_range hx
  obtain ⟨hge, hle⟩ := packedExponent_bounds x
  have hpos := byteLength_pos hx
  rw [field_exponent, field_sign, field_mantissa, he, hs, hm]
  exact ⟨by omega, by omega, packedExponent_le_of_lt hn, rfl, hlo, by omega⟩

/-- The last clause of canonical in the terms of the fields (40_codec.md R59). -/
theorem low_bits_zero_of_canonical {c : Word32} (h : Canonical c) :
    field c 22 0 % 2 ^ (8 * (3 - field c 31 24)) = 0 := by
  rw [field_mantissa, field_exponent]
  obtain rfl | ⟨-, -, hlow⟩ := h
  · rfl
  · exact hlow

/-- Settles O27: the fields of an encoded word, and the law of canonical words (O25) on what `ENC` wrote. -/
theorem encWritesCanonicalWords : Obligations.EncWritesCanonicalWords := by
  intro tw w x hw hf hrun y z
  obtain ⟨c, hc⟩ := encodeCompact_some_of_running hf hrun
  have hy : y = { x with cb := c } := congrArg Reply.regs (transact_enc_of_some w hf hc)
  have hcb : y.cb = c := congrArg Regs.cb hy
  have hcan : Canonical y.cb := hcb ▸ canonical_of_encodeCompact hc
  have hfits : compactMag y.cb < 2 ^ tw := hcb ▸ compactMag_of_encodeCompact_lt hc
  obtain ⟨-, hback, -⟩ := decThenEncKeepsCanonicalWords tw w w y hw hrun hfits
  refine ⟨hcan, hback.mpr hcan, fun htm => ?fields⟩
  have hne : x.tm.toNat ≠ 0 := fun h0 => htm (BitVec.eq_of_toNat_eq h0)
  obtain ⟨hexp, hpos, hmax, hsign, hlo, hhi⟩ :=
    fieldBounds_of_encodeCompact hne (tm_lt_pow_bytes x hw) (hcb.symm ▸ hc)
  exact ⟨hexp, hpos, hmax, hsign, hlo, hhi, low_bits_zero_of_canonical hcan⟩

end Sys2Proof.Proofs

/-! PROOFS of the family 41_work.md. The work and the time are floors of quotients, so their laws are those of one floor
division: the two inequalities that determine it, and how it falls as the divisor grows. -/

namespace Sys2Proof.Proofs

open Sys2Proof.Machine Sys2Proof.Laws

variable {tw : Nat}

/- The work of a target as a number (41_work.md R65 to R67, R72, R73). -/

theorem workOfTarget_eq_zero {s : BitVec 1} {mag : Nat} (h : s = 1 ∨ mag = 0) : workOfTarget s mag = 0 :=
  if_pos h

/-- A target that is zero or negative has no work; a positive one has the quotient (41_work.md R65). -/
theorem workOfTarget_cases (s : BitVec 1) (mag : Nat) :
    ((s = 1 ∨ mag = 0) ∧ workOfTarget s mag = 0)
      ∨ (1 ≤ mag ∧ workOfTarget s mag = 2 ^ 256 / (mag + 1)) := by
  by_cases h : s = 1 ∨ mag = 0
  · exact .inl ⟨h, workOfTarget_eq_zero h⟩
  · exact .inr ⟨Nat.one_le_iff_ne_zero.mpr fun h0 => h (.inr h0), if_neg h⟩

theorem workOfTarget_of_pos {mag : Nat} (h : 1 ≤ mag) : workOfTarget 0 mag = 2 ^ 256 / (mag + 1) := by
  obtain ⟨hs | h0, -⟩ | ⟨-, hw⟩ := workOfTarget_cases 0 mag
  · exact absurd hs (by decide)
  · omega
  · exact hw

/-- The quotient identity: the two inequalities single out the work (41_work.md R73). -/
theorem workOfTarget_eq_iff {mag w : Nat} (h : 1 ≤ mag) :
    workOfTarget 0 mag = w ↔ w * (mag + 1) ≤ 2 ^ 256 ∧ 2 ^ 256 < (w + 1) * (mag + 1) := by
  have hpos : 0 < mag + 1 := Nat.succ_pos mag
  rw [workOfTarget_of_pos h, ← Nat.le_div_iff_mul_le hpos, ← Nat.div_lt_iff_lt_mul hpos]
  omega

/-- The divisor of a work is at least 2 (41_work.md R67). -/
theorem workOfTarget_le (s : BitVec 1) (mag : Nat) : workOfTarget s mag ≤ 2 ^ 255 := by
  obtain ⟨-, hw⟩ | ⟨hpos, hw⟩ := workOfTarget_cases s mag
  · omega
  · calc workOfTarget s mag = 2 ^ 256 / (mag + 1) := hw
      _ ≤ 2 ^ 256 / 2 := Nat.div_le_div_left (Nat.succ_le_succ hpos) Nat.two_pos
      _ = 2 ^ 255 := by norm_num

theorem workOfTarget_antitone {t₁ t₂ : Nat} (hpos : 1 ≤ t₁) (hlt : t₁ < t₂) :
    workOfTarget 0 t₂ ≤ workOfTarget 0 t₁ := by
  rw [workOfTarget_of_pos hpos, workOfTarget_of_pos (hpos.trans hlt.le)]
  exact Nat.div_le_div_left (Nat.succ_le_succ hlt.le) (Nat.succ_pos t₁)

/-- When `a * b ≤ n`, the quotient `q = n / b` is at least `a`, so `(q + 1) * a ≤ q * (a + 1) ≤ q * b ≤ n`. -/
theorem div_lt_div_of_mul_le {n a b : Nat} (ha : 0 < a) (hab : a < b) (h : a * b ≤ n) : n / b < n / a := by
  have hq : a ≤ n / b := (Nat.le_div_iff_mul_le (ha.trans hab)).mpr h
  rw [Nat.lt_iff_add_one_le, Nat.le_div_iff_mul_le ha]
  calc (n / b + 1) * a = n / b * a + a := Nat.succ_mul _ _
    _ ≤ n / b * a + n / b := Nat.add_le_add_left hq _
    _ = n / b * (a + 1) := (Nat.mul_succ _ _).symm
    _ ≤ n / b * b := Nat.mul_le_mul_left _ hab
    _ ≤ n := Nat.div_mul_le_self n b

theorem workOfTarget_strictAnti {t₁ t₂ : Nat} (hpos : 1 ≤ t₁) (hlt : t₁ < t₂) (h : (t₁ + 1) * (t₂ + 1) ≤ 2 ^ 256) :
    workOfTarget 0 t₂ < workOfTarget 0 t₁ := by
  rw [workOfTarget_of_pos hpos, workOfTarget_of_pos (hpos.trans hlt.le)]
  exact div_lt_div_of_mul_le (Nat.succ_pos t₁) (Nat.succ_lt_succ hlt) h

theorem sign_or_mag_of_targetValue_nonpos {t : Target} (h : targetValue t ≤ 0) : t.sign = 1 ∨ t.mag = 0 := by
  by_cases hs : t.sign = 1
  · exact .inl hs
  · rw [targetValue, if_neg hs] at h
    exact .inr (by omega)

/-- Settles O35: the quotient identity, read from right to left. -/
theorem workIsTheUniqueQuotient : Obligations.WorkIsTheUniqueQuotient :=
  fun _ _ hpos => (workOfTarget_eq_iff hpos).symm.trans eq_comm

/-- Settles O36: below `2^128 - 1` the product of the two divisors is below `2^256`, so the third part follows from the
second; the equal pairs are the rule's own. -/
theorem workFallsAsTheTargetRises : Obligations.WorkFallsAsTheTargetRises := by
  refine ⟨fun t₁ t₂ hpos hlt => ⟨workOfTarget_antitone hpos hlt, workOfTarget_strictAnti hpos hlt, fun hsmall => ?small⟩,
    fun t ht => workOfTarget_eq_zero (sign_or_mag_of_targetValue_nonpos ht), ?pairs⟩
  case small =>
    refine workOfTarget_strictAnti hpos hlt ?_
    calc (t₁ + 1) * (t₂ + 1) ≤ 2 ^ 128 * 2 ^ 128 := Nat.mul_le_mul (by omega) (by omega)
      _ = 2 ^ 256 := by norm_num
  case pairs => decide

/- What the commands leave in `WK` (41_work.md R67 to R69, R75). -/

/-- `WK` is wide enough for every work (41_work.md R67). -/
theorem writeWork_wk_toNat (x : Regs tw) : (writeWork x).wk.toNat = workOfTarget x.ts x.tm.toNat := by
  have hlt : workOfTarget x.ts x.tm.toNat < 2 ^ Config.WW := (workOfTarget_le _ _).trans_lt (by norm_num)
  rw [writeWork_wk, BitVec.toNat_ofNat, Nat.mod_eq_of_lt hlt]

/-- The sign a decoded zero loses in `TS` makes no difference to its work (40_codec.md R53). -/
theorem workOfTarget_writeTarget (x : Regs tw) {c : Word32} (h : compactMag c < 2 ^ tw) :
    workOfTarget (writeTarget (decodeCompact c) x).ts (writeTarget (decodeCompact c) x).tm.toNat
      = workOfTarget (decodeCompact c).sign (decodeCompact c).mag := by
  rw [writeTarget_tm_toNat x h, writeTarget_ts, decodeCompact_mag]
  split
  case isTrue h0 => rw [h0, workOfTarget_zero, workOfTarget_zero]
  case isFalse => rfl

theorem wrktReply_of_halted {x : Regs tw} (h : x.sr.fatal = 1) : wrktReply x = refuse x :=
  if_pos h

theorem wrktReply_of_running {x : Regs tw} (hf : x.sr.fatal ≠ 1) : wrktReply x = respond 0 (writeWork x) :=
  if_neg hf

/-- The block that a fault has just halted refuses `WRKT` (60_exceptions.md R87). -/
theorem wrktReply_after_fault (e : Cause) (x : Regs tw) : wrktReply (raiseFatal e x).regs = raiseFatal e x :=
  wrktReply_of_halted rfl

/-- Settles O34: the range is that of the quotient, and the range fits `WK`. -/
theorem workIsInRange : Obligations.WorkIsInRange := by
  refine ⟨fun mag hpos => ⟨workOfTarget_le 0 mag, ?top, fun hle => ?pos, fun hge => ?zero⟩, workOfTarget_le,
    fun tw w x hf => ⟨?wrkt, fun hfits => ?wrkc⟩⟩
  case top =>
    rw [workOfTarget_eq_iff hpos]
    omega
  case pos =>
    rw [workOfTarget_of_pos hpos]
    exact Nat.div_pos (by omega) (Nat.succ_pos mag)
  case zero =>
    rw [workOfTarget_of_pos hpos]
    exact Nat.div_eq_of_lt (Nat.lt_succ_of_le hge)
  case wrkt =>
    rw [transact_wrkt, wrktReply_of_running hf]
    exact writeWork_wk_toNat x
  case wrkc =>
    rw [transact_wrkc_of_fits w hf hfits]
    exact (writeWork_wk_toNat _).trans (workOfTarget_writeTarget x hfits)

/-- `WRKC` makes the very reply that `WRKT` makes after `DEC`, in each of the three ways `DEC` can end: the two commands
branch on the same two conditions (41_work.md R75). -/
theorem wrkcReply_eq_wrktReply_decReply (x : Regs tw) : wrkcReply x = wrktReply (decReply x).regs := by
  unfold wrkcReply decReply
  split
  case isTrue hhalt => exact (wrktReply_of_halted hhalt).symm
  case isFalse hf =>
    split
    case isTrue => exact (wrktReply_after_fault _ x).symm
    case isFalse => exact (wrktReply_of_running (x := writeTarget _ x) hf).symm

/-- `DEC` responds 0 however it ends (40_codec.md R56, 60_exceptions.md R84, R87). -/
theorem decReply_rdata (x : Regs tw) : (decReply x).rdata = 0 := by
  obtain ⟨-, h⟩ | ⟨-, -, h⟩ | ⟨-, -, h⟩ := decReply_cases x <;> rw [h] <;> rfl

theorem wrktReply_rdata (x : Regs tw) : (wrktReply x).rdata = 0 := by
  obtain ⟨-, h⟩ | ⟨-, h⟩ := wrktReply_cases x <;> rw [h] <;> rfl

/-- Settles O37: the two replies are one, and all the responses are 0. -/
theorem wrkcIsDecThenWrkt : Obligations.WrkcIsDecThenWrkt := by
  intro tw w w₁ w₂ x
  have heq : transact 0x21000000#32 w x = transact 0x20000000#32 w₂ (transact 0x10000000#32 w₁ x).regs :=
    wrkcReply_eq_wrktReply_decReply x
  refine ⟨congrArg Reply.regs heq, ?rdata, congrArg Reply.rdata heq, fun hf hov => ?overflow⟩
  case rdata =>
    rw [heq, transact_wrkt, transact_dec, wrktReply_rdata, decReply_rdata]
  case overflow =>
    have hdec : transact 0x10000000#32 w₁ x = raiseFatal .decOverflow x :=
      (transact_dec_of_running w₁ hf).trans (if_pos hov)
    rw [heq, hdec, transact_wrkt, wrktReply_after_fault]
    exact ⟨rfl, rfl, rfl⟩

/- The time (41_work.md R70, R71, R74). -/

theorem divtReply_of_running {x : Regs tw} (hf : x.sr.fatal ≠ 1) (hr : x.hr ≠ 0) :
    divtReply x = respond 0 { x with tt := BitVec.ofNat Config.QW (divTime x.wk.toNat x.hr.toNat) } := by
  obtain ⟨hhalt, -⟩ | ⟨-, h0, -⟩ | ⟨-, -, heq⟩ := divtReply_cases x
  · exact absurd hhalt hf
  · exact absurd h0 hr
  · exact heq

/-- A time is at most the work it is the time of, so `TT` holds it whole (41_work.md R70). -/
theorem divTime_fits (wk : BitVec Config.WW) (h : Nat) :
    (BitVec.ofNat Config.QW (divTime wk.toNat h)).toNat = wk.toNat / h := by
  rw [BitVec.toNat_ofNat]
  exact Nat.mod_eq_of_lt ((Nat.div_le_self _ _).trans_lt wk.isLt)

/-- Settles O32: the quotient fits `TT`, and the two inequalities are those of floor division. -/
theorem divtWritesTheTime : Obligations.DivtWritesTheTime := by
  intro s hf hr
  have hpos : 0 < s.regs.hr.toNat := Nat.pos_of_ne_zero fun h0 => hr (BitVec.eq_of_toNat_eq h0)
  refine ⟨BitVec.ofNat Config.QW (divTime s.regs.wk.toNat s.regs.hr.toNat), ?run, ?lower, ?upper⟩
  case run =>
    rw [exec_eq_finish]
    exact congrArg (finish s) (divtReply_of_running hf hr)
  case lower =>
    rw [divTime_fits]
    exact Nat.div_mul_le_self _ _
  case upper =>
    rw [divTime_fits]
    exact (Nat.div_lt_iff_lt_mul hpos).mp (Nat.lt_succ_self _)

end Sys2Proof.Proofs

/-! PROOFS of the family 60_exceptions.md: the reply of a halted block to every command, legal or not, and why no run of
commands changes its registers. -/

namespace Sys2Proof.Proofs

open Sys2Proof.Machine Sys2Proof.Laws

variable {tw : Nat}

theorem wf_of_decodeGet {c : Word32} {i : Instr} (h : decodeGet tw c = .ok i) : i.WF tw := by
  unfold decodeGet at h
  split at h
  next => cases h
  next hM =>
    cases h
    obtain ⟨-, -, -, hvalid⟩ := decodeM_ok hM
    exact hvalid

theorem wf_of_decodePut {c : Word32} {i : Instr} (h : decodePut tw c = .ok i) : i.WF tw := by
  unfold decodePut at h
  split at h
  next => cases h
  next hM =>
    split at h
    next hw =>
      cases h
      obtain ⟨-, -, -, hvalid⟩ := decodeM_ok hM
      exact ⟨hvalid, hw⟩
    next => cases h

/-- The decoder answers only commands that have a word of their own (30_encoding.md R46). -/
theorem wf_of_decodeCommand {c : Word32} {i : Instr} (h : decodeCommand tw c = .ok i) : i.WF tw := by
  unfold decodeCommand at h
  cases hop : opcodeOf (opField c) with
  | none => rw [hop] at h; cases h
  | some op =>
    rw [hop] at h
    cases op with
    | get => exact wf_of_decodeGet h
    | put => exact wf_of_decodePut h
    | dec | enc | wrkt | wrkc | divt =>
      obtain ⟨-, rfl⟩ := decodeC_ok h
      exact trivial

/-- A limb is the digit of its register's value, cut to 32 bits (20_memory.md R25). -/
theorem regRead_eq_ofNat (r : Reg) (k : Byte) (x : Regs tw) :
    regRead r k x = BitVec.ofNat 32 (regValue r x / 2 ^ (32 * k.toNat)) :=
  BitVec.eq_of_toNat_eq ((regRead_toNat r k x).trans (BitVec.toNat_ofNat _ _).symm)

/-- `GET` looks at `FATAL` only when its address is not valid (42_register_access.md R77). -/
theorem getReply_of_valid {r : Reg} {k : Byte} (h : ValidAddress tw r k) (x : Regs tw) :
    getReply r k x = respond (regRead r k x) x :=
  if_pos h

theorem illegalCommand_of_halted {x : Regs tw} (h : x.sr.fatal = 1) : illegalCommand x = refuse x :=
  if_pos h

/-- Every command but `GET` asks first whether the block is halted (60_exceptions.md R87). -/
theorem commandReply_of_halted {i : Instr} {x : Regs tw} (w : Word32) (h : x.sr.fatal = 1)
    (hget : ∀ r k, i ≠ .get r k) : commandReply i w x = refuse x := by
  cases i with
  | get r k => exact absurd rfl (hget r k)
  | wrkt => exact wrktReply_of_halted h
  | put | dec | enc | wrkc | divt => exact if_pos h

/-- A legal `GET` is served whether the block is halted or not (42_register_access.md R77). -/
theorem transact_of_get {c : Word32} {r : Reg} {k : Byte} (w : Word32) (x : Regs tw)
    (h : decodeCommand tw c = .ok (.get r k)) :
    transact c w x = respond (BitVec.ofNat 32 (regValue r x / 2 ^ (32 * k.toNat))) x := by
  have hvalid : ValidAddress tw r k := wf_of_decodeCommand h
  rw [transact_of_ok x w h, ← regRead_eq_ofNat]
  exact getReply_of_valid hvalid x

/-- Every other word, legal or not, is refused while the block is halted (60_exceptions.md R87). -/
theorem transact_of_halted {c : Word32} {x : Regs tw} (w : Word32) (hhalt : x.sr.fatal = 1)
    (hget : ∀ r k, decodeCommand tw c ≠ .ok (.get r k)) : transact c w x = refuse x := by
  cases h : decodeCommand tw c with
  | error e => exact (transact_of_error x w h).trans (illegalCommand_of_halted hhalt)
  | ok i =>
    have hi : ∀ r k, i ≠ .get r k := fun r k heq => hget r k (heq ▸ h)
    exact (transact_of_ok x w h).trans (commandReply_of_halted w hhalt hi)

/-- Served or refused, no word changes a register of a halted block (60_exceptions.md R87). -/
theorem transact_regs_of_halted {x : Regs tw} (hhalt : x.sr.fatal = 1) (c w : Word32) : (transact c w x).regs = x := by
  by_cases hget : ∃ r k, decodeCommand tw c = .ok (.get r k)
  case pos =>
    obtain ⟨r, k, h⟩ := hget
    rw [transact_of_get w x h, respond_regs]
  case neg =>
    rw [transact_of_halted w hhalt fun r k h => hget ⟨r, k, h⟩, refuse_regs]

theorem runRequests_cons_regs (q : Request) (qs : List Request) (x : Regs tw) :
    (runRequests (q :: qs) x).1 = (runRequests qs (transact q.cmd q.wdata x).regs).1 :=
  rfl

/-- Registers that every transaction leaves as they are come out of every run as they went in. -/
theorem runRequests_regs_of_fixed {x : Regs tw} (h : ∀ c w, (transact c w x).regs = x) (qs : List Request) :
    (runRequests qs x).1 = x := by
  induction qs with
  | nil => rfl
  | cons q qs ih => rw [runRequests_cons_regs, h, ih]

/-- Settles O40: `GET` never asks whether the block is halted, everything else asks first and is refused, so every
transaction and with it every run leaves a halted block as it is. -/
theorem haltedBlockIsFrozen : Obligations.HaltedBlockIsFrozen := fun _ x hhalt =>
  ⟨fun _ w _ _ h => transact_of_get w x h, fun _ w hget => transact_of_halted w hhalt hget,
    runRequests_regs_of_fixed (transact_regs_of_halted hhalt)⟩

end Sys2Proof.Proofs

/-! PROOFS of the family other, command words: the decoder is the inverse of the encoder on the well-formed commands
(30_encoding.md R42, R46), and the assembler emits words of well-formed commands (R49). -/

namespace Sys2Proof.Proofs

open Sys2Proof.Machine Sys2Proof.Laws

variable {tw : Nat}

/-- The opcode a command is written with (30_encoding.md R42). -/
def opcodeOfInstr : Instr → Opcode
  | .get _ _ => .get
  | .put _ _ => .put
  | .dec => .dec
  | .enc => .enc
  | .wrkt => .wrkt
  | .wrkc => .wrkc
  | .divt => .divt

@[simp] theorem opField_encode (i : Instr) : opField (encode i) = (opcodeOfInstr i).byte := by
  cases i with
  | get r k => exact opField_wordM .get r k
  | put r k => exact opField_wordM .put r k
  | dec | enc | wrkt | wrkc | divt => exact opField_wordC _

/-- The part of the decoder that reads the rest of the word, by opcode (30_encoding.md R46). -/
def decodeRest (tw : Nat) (c : Word32) : Opcode → Except Illegal Instr
  | .get => decodeGet tw c
  | .put => decodePut tw c
  | .dec => decodeC .dec c
  | .enc => decodeC .enc c
  | .wrkt => decodeC .wrkt c
  | .wrkc => decodeC .wrkc c
  | .divt => decodeC .divt c

theorem decodeCommand_of_opcode {c : Word32} {op : Opcode} (h : opcodeOf (opField c) = some op) :
    decodeCommand tw c = decodeRest tw c op := by
  unfold decodeCommand
  rw [h]
  cases op <;> rfl

theorem decodeCommand_of_no_opcode {c : Word32} (h : opcodeOf (opField c) = none) :
    decodeCommand tw c = .error .undefinedOpcode := by
  unfold decodeCommand
  rw [h]

/- Decoding an encoded command. -/

theorem decodeC_wordC (i : Instr) (op : Opcode) : decodeC i (wordC op) = .ok i :=
  if_pos (reservedC_wordC op)

theorem decodeM_wordM (op : Opcode) {r : Reg} {k : Byte} (h : ValidAddress tw r k) :
    decodeM tw (wordM op r k) = .ok (r, k) := by
  unfold decodeM
  rw [if_neg (not_not.mpr (reservedM_wordM op r k)), regField_wordM, regOf_id, limbField_wordM]
  exact if_pos h

theorem decodeGet_wordM {r : Reg} {k : Byte} (h : ValidAddress tw r k) :
    decodeGet tw (wordM .get r k) = .ok (.get r k) := by
  unfold decodeGet
  rw [decodeM_wordM .get h]

theorem decodePut_wordM {r : Reg} {k : Byte} (h : ValidAddress tw r k) (hw : r.hostWritable = true) :
    decodePut tw (wordM .put r k) = .ok (.put r k) := by
  unfold decodePut
  rw [decodeM_wordM .put h]
  exact if_pos hw

theorem decodeCommand_encode {i : Instr} (h : i.WF tw) : decodeCommand tw (encode i) = .ok i := by
  rw [decodeCommand_of_opcode ((congrArg opcodeOf (opField_encode i)).trans (opcodeOf_byte _))]
  cases i with
  | get r k => exact decodeGet_wordM h
  | put r k =>
    obtain ⟨hvalid, hw⟩ := h
    exact decodePut_wordM hvalid hw
  | dec | enc | wrkt | wrkc | divt => exact decodeC_wordC _ _

/-- Settles O2: the fields of an encoded word are those it was made of, format by format. -/
theorem decodeOfEncode : Obligations.DecodeOfEncode :=
  fun _ _ h => decodeCommand_encode h

/- Encoding a decoded word. -/

/-- A format M word is the four fields that the decoder of its format has checked. -/
theorem wordM_of_decodeM {op : Opcode} {c : Word32} {r : Reg} {k : Byte} (hop : op.byte = opField c)
    (h : decodeM tw c = .ok (r, k)) : wordM op r k = c := by
  obtain ⟨hz, hr, hk, -⟩ := decodeM_ok h
  unfold wordM
  rw [hop, ← hr, ← hk]
  exact word_of_fieldsM c hz

theorem wordC_of_reservedC {op : Opcode} {c : Word32} (hop : op.byte = opField c) (hz : reservedC c = 0) :
    wordC op = c := by
  unfold wordC
  rw [hop]
  exact word_of_fieldsC c hz

theorem encode_of_decodeGet {c : Word32} {i : Instr} (hop : Opcode.get.byte = opField c)
    (h : decodeGet tw c = .ok i) : encode i = c := by
  unfold decodeGet at h
  split at h
  next => cases h
  next hM =>
    cases h
    exact wordM_of_decodeM hop hM

theorem encode_of_decodePut {c : Word32} {i : Instr} (hop : Opcode.put.byte = opField c)
    (h : decodePut tw c = .ok i) : encode i = c := by
  unfold decodePut at h
  split at h
  next => cases h
  next hM =>
    split at h
    next =>
      cases h
      exact wordM_of_decodeM hop hM
    next => cases h

/-- No bit of a word that decodes is ignored (30_encoding.md R46). -/
theorem encode_of_decodeCommand {c : Word32} {i : Instr} (h : decodeCommand tw c = .ok i) : encode i = c := by
  cases hop : opcodeOf (opField c) with
  | none =>
    rw [decodeCommand_of_no_opcode hop] at h
    cases h
  | some op =>
    have hbyte := byte_of_opcodeOf hop
    rw [decodeCommand_of_opcode hop] at h
    cases op with
    | get => exact encode_of_decodeGet hbyte h
    | put => exact encode_of_decodePut hbyte h
    | dec | enc | wrkt | wrkc | divt =>
      obtain ⟨hz, rfl⟩ := decodeC_ok h
      exact wordC_of_reservedC hbyte hz

/-- Settles O3: every field of a word is checked by the decoder or stands in the command it answers. -/
theorem decodedWordIsTheEncoding : Obligations.DecodedWordIsTheEncoding :=
  fun _ _ _ h => ⟨wf_of_decodeCommand h, encode_of_decodeCommand h⟩

/- Counting the legal words. -/

/-- The listed limb indices are the valid ones: each fits the 8-bit field (20_memory.md R24, 30_encoding.md R44). -/
theorem mem_limbIndices_iff (hw : Config.LegalWidth tw) {r : Reg} {k : Byte} :
    k ∈ limbIndices tw r ↔ ValidAddress tw r k := by
  simp only [limbIndices, List.mem_map, List.mem_range]
  constructor
  · rintro ⟨n, hn, rfl⟩
    exact (limbIndex_toNat hw hn).trans_lt hn
  · intro hk
    exact ⟨k.toNat, hk, by simp⟩

theorem mem_allRegs (r : Reg) : r ∈ allRegs := by
  cases r <;> decide

/-- The list of legal commands holds the well-formed commands and no other (30_encoding.md R42). -/
theorem mem_legalCommands_iff (hw : Config.LegalWidth tw) (i : Instr) : i ∈ legalCommands tw ↔ i.WF tw := by
  cases i with
  | get r k => simp [legalCommands, mem_limbIndices_iff hw, mem_allRegs]
  | put r k => simp [legalCommands, mem_limbIndices_iff hw, mem_allRegs, and_comm]
  | dec | enc | wrkt | wrkc | divt => simp [legalCommands]

/-- Two well-formed commands have two words, because the decoder tells them apart. -/
theorem encode_injOn : Set.InjOn encode {i | i.WF tw} := by
  intro i hi j hj hij
  have hdec : (.ok i : Except Illegal Instr) = .ok j := by
    rw [← decodeCommand_encode hi, ← decodeCommand_encode hj, hij]
  exact Except.ok.inj hdec

/-- The legal words are the words of the well-formed commands. -/
theorem decodes_iff (c : Word32) : (∃ i, decodeCommand tw c = .ok i) ↔ ∃ i : Instr, i.WF tw ∧ encode i = c := by
  constructor
  · rintro ⟨i, h⟩
    exact ⟨i, wf_of_decodeCommand h, encode_of_decodeCommand h⟩
  · rintro ⟨i, hi, rfl⟩
    exact ⟨i, decodeCommand_encode hi⟩

theorem legalWidth_TW : Config.LegalWidth Config.TW := by decide

theorem legalCommands_length : (legalCommands Config.TW).length = 58 := by decide

theorem legalCommands_nodup : (legalCommands Config.TW).Nodup := by decide

/-- Settles O5: the 58 listed commands are the well-formed ones, and the encoder keeps them apart. -/
theorem fiftyEightLegalWords : Obligations.FiftyEightLegalWords := by
  have hmem := mem_legalCommands_iff legalWidth_TW
  refine ⟨?count, ?nodup, fun c => ?legal⟩
  case count =>
    rw [List.length_map]
    exact legalCommands_length
  case nodup =>
    exact legalCommands_nodup.map_on fun i hi j hj => encode_injOn ((hmem i).mp hi) ((hmem j).mp hj)
  case legal =>
    rw [decodes_iff, List.mem_map]
    exact exists_congr fun i => and_congr_left' (hmem i).symm

theorem decodeTableWord_encode {i : Instr} (h : i.WF Config.TW) : decodeTableWord 32 (encode i).toNat = some i := by
  have hword : commandWordOf 32 (encode i).toNat = encode i := by
    rw [commandWordOf, Nat.mod_eq_of_lt (encode i).isLt, BitVec.ofNat_toNat, BitVec.setWidth_eq]
  simp only [decodeTableWord, hword, decodeCommand_encode h]

/-- Settles O1: each sample word is the word of the well-formed command it stands for. -/
theorem sampleWordsDecode : Obligations.SampleWordsDecode :=
  ⟨decodeTableWord_encode (i := .get .tm 7) (by decide), decodeTableWord_encode (i := .get .sr 0) (by decide),
    decodeTableWord_encode (i := .put .hr 1) (by decide), decodeTableWord_encode (i := .put .ts 0) (by decide),
    decodeTableWord_encode (i := .dec) trivial, decodeTableWord_encode (i := .enc) trivial,
    decodeTableWord_encode (i := .wrkt) trivial, decodeTableWord_encode (i := .wrkc) trivial,
    decodeTableWord_encode (i := .divt) trivial⟩

/- The assembler (30_encoding.md R49, R50). -/

/-- The index that the assembler takes is valid, given or left out. -/
theorem valid_of_resolveIndex {r : Reg} {k : Option Nat} {b : Byte} (h : resolveIndex tw r k = some b) :
    ValidAddress tw r b := by
  cases k with
  | none =>
    obtain ⟨hone, h0⟩ := Option.ite_none_right_eq_some.mp h
    cases h0
    exact Nat.one_pos.trans_eq hone.symm
  | some n =>
    obtain ⟨⟨hlimb, hbyte⟩, hn⟩ := Option.ite_none_right_eq_some.mp h
    cases hn
    exact (BitVec.toNat_ofNat n 8).trans_lt ((Nat.mod_eq_of_lt hbyte).trans_lt hlimb)

theorem plainRequest_wf {i : Instr} (h : i.WF tw) : ∃ j : Instr, j.WF tw ∧ encode j = (plainRequest i).cmd :=
  ⟨i, h, rfl⟩

/-- Every request that a line other than `RAW` stands for has the word of a well-formed command. -/
theorem assembleLine_wf (hw : Config.LegalWidth tw) {l : AsmLine} {qs : List Request}
    (h : assembleLine tw l = some qs) (hraw : ∀ word data, l ≠ .raw word data) :
    ∀ q ∈ qs, ∃ i : Instr, i.WF tw ∧ encode i = q.cmd := by
  cases l with
  | get r k =>
    obtain ⟨b, hb, rfl⟩ := Option.map_eq_some_iff.mp h
    rw [List.forall_mem_singleton]
    exact plainRequest_wf (valid_of_resolveIndex hb)
  | put r k imm =>
    obtain ⟨⟨hwr, -⟩, h⟩ := Option.ite_none_right_eq_some.mp h
    obtain ⟨b, hb, rfl⟩ := Option.map_eq_some_iff.mp h
    rw [List.forall_mem_singleton]
    exact ⟨.put r b, ⟨valid_of_resolveIndex hb, hwr⟩, rfl⟩
  | putw r imm =>
    obtain ⟨⟨hwr, -⟩, h⟩ := Option.ite_none_right_eq_some.mp h
    cases h
    rw [List.forall_mem_map]
    exact fun k hk => ⟨.put r k, ⟨(mem_limbIndices_iff hw).mp hk, hwr⟩, rfl⟩
  | getw r =>
    cases h
    rw [List.forall_mem_map]
    exact fun k hk => plainRequest_wf ((mem_limbIndices_iff hw).mp hk)
  | raw word data => exact absurd rfl (hraw word data)
  | dec | enc | wrkt | wrkc | divt =>
    cases h
    rw [List.forall_mem_singleton]
    exact plainRequest_wf trivial

/-- Settles O51: a word that the assembler emits is the word of a well-formed command, which the decoder accepts. -/
theorem assembledWordsAreLegal : Obligations.AssembledWordsAreLegal :=
  fun _ _ _ hw h hraw q hq => (decodes_iff q.cmd).mpr (assembleLine_wf hw h hraw q hq)

end Sys2Proof.Proofs

/-! PROOFS of the family other, one transaction: the four ways it can end, and what follows for the data word, the
response, the registers it may change, the faults and the invariant of the registers. -/

namespace Sys2Proof.Proofs

open Sys2Proof.Machine Sys2Proof.Laws

variable {tw : Nat}

/-- `Completes w x i y`: the command `i` with the data word `w` completes on the registers `x` and leaves `y`. One
constructor for each command that writes a register, with the condition under which it does not fault. -/
inductive Completes (w : Word32) (x : Regs tw) : Instr → Regs tw → Prop
  | put {r : Reg} {k : Byte} (hvalid : ValidAddress tw r k) (hw : r.hostWritable = true) :
      Completes w x (.put r k) (regWrite r k w x)
  | dec (hfits : decodedMag x.cb < 2 ^ tw) : Completes w x .dec (writeTarget (decodeCompact x.cb) x)
  | enc {c : Word32} (hc : encodeCompact x.ts x.tm.toNat = some c) : Completes w x .enc { x with cb := c }
  | wrkt : Completes w x .wrkt (writeWork x)
  | wrkc (hfits : decodedMag x.cb < 2 ^ tw) :
      Completes w x .wrkc (writeWork (writeTarget (decodeCompact x.cb) x))
  | divt (hr : x.hr ≠ 0) :
      Completes w x .divt { x with tt := BitVec.ofNat Config.QW (divTime x.wk.toNat x.hr.toNat) }

theorem illegalCommand_of_running {x : Regs tw} (hf : x.sr.fatal ≠ 1) :
    illegalCommand x = raiseFatal .illegalCmd x :=
  if_neg hf

/-- A term without a word of its own is the illegal command (20_memory.md R24). -/
theorem commandReply_of_not_wf {i : Instr} (w : Word32) (x : Regs tw) (h : ¬i.WF tw) :
    commandReply i w x = illegalCommand x := by
  cases i with
  | get r k =>
    change getReply r k x = illegalCommand x
    obtain ⟨hvalid, -⟩ | ⟨-, heq⟩ := getReply_cases x r k
    · exact absurd hvalid h
    · exact heq
  | put r k =>
    change putReply r k w x = illegalCommand x
    obtain ⟨hhalt, heq⟩ | ⟨-, hvalid, hw, -⟩ | ⟨hf, -, heq⟩ := putReply_cases x r k w
    · rw [heq, illegalCommand_of_halted hhalt]
    · exact absurd ⟨hvalid, hw⟩ h
    · rw [heq, illegalCommand_of_running hf]
  | dec | enc | wrkt | wrkc | divt => exact absurd trivial h

/-- How a command other than `GET` ends on a block that is not halted: in a fault, or complete with response 0. -/
theorem commandReply_of_running {i : Instr} {x : Regs tw} (w : Word32) (hf : x.sr.fatal ≠ 1)
    (hget : ∀ r k, i ≠ .get r k) :
    (∃ e, commandReply i w x = raiseFatal e x) ∨ ∃ y, Completes w x i y ∧ commandReply i w x = respond 0 y := by
  cases i with
  | get r k => exact absurd rfl (hget r k)
  | put r k =>
    obtain ⟨hhalt, -⟩ | ⟨-, hvalid, hw, heq⟩ | ⟨-, -, heq⟩ := putReply_cases x r k w
    · exact absurd hhalt hf
    · exact .inr ⟨_, .put hvalid hw, heq⟩
    · exact .inl ⟨_, heq⟩
  | dec =>
    obtain ⟨hhalt, -⟩ | ⟨-, -, heq⟩ | ⟨-, hfits, heq⟩ := decReply_cases x
    · exact absurd hhalt hf
    · exact .inl ⟨_, heq⟩
    · exact .inr ⟨_, .dec hfits, heq⟩
  | enc =>
    obtain ⟨hhalt, -⟩ | ⟨-, -, heq⟩ | ⟨-, c, hc, heq⟩ := encReply_cases x
    · exact absurd hhalt hf
    · exact .inl ⟨_, heq⟩
    · exact .inr ⟨_, .enc hc, heq⟩
  | wrkt => exact .inr ⟨_, .wrkt, wrktReply_of_running hf⟩
  | wrkc =>
    obtain ⟨hhalt, -⟩ | ⟨-, -, heq⟩ | ⟨-, hfits, heq⟩ := wrkcReply_cases x
    · exact absurd hhalt hf
    · exact .inl ⟨_, heq⟩
    · exact .inr ⟨_, .wrkc hfits, heq⟩
  | divt =>
    obtain ⟨hhalt, -⟩ | ⟨-, -, heq⟩ | ⟨-, hr, heq⟩ := divtReply_cases x
    · exact absurd hhalt hf
    · exact .inl ⟨_, heq⟩
    · exact .inr ⟨_, .divt hr, heq⟩

/-- The four ways a transaction ends: `GET` served, the word refused, a fault, another command complete (00_scope.md
R8, 60_exceptions.md R84, R87). -/
theorem transact_cases (c w : Word32) (x : Regs tw) :
    (∃ r k, decodeCommand tw c = .ok (.get r k) ∧ transact c w x = respond (regRead r k x) x)
      ∨ (x.sr.fatal = 1 ∧ transact c w x = refuse x)
      ∨ (x.sr.fatal ≠ 1 ∧ ∃ e, transact c w x = raiseFatal e x)
      ∨ (x.sr.fatal ≠ 1 ∧ ∃ i y, decodeCommand tw c = .ok i ∧ Completes w x i y ∧ transact c w x = respond 0 y) := by
  by_cases hget : ∃ r k, decodeCommand tw c = .ok (.get r k)
  case pos =>
    obtain ⟨r, k, h⟩ := hget
    exact .inl ⟨r, k, h, (transact_of_ok x w h).trans (getReply_of_valid (wf_of_decodeCommand h) x)⟩
  case neg =>
    have hnot : ∀ r k, decodeCommand tw c ≠ .ok (.get r k) := fun r k h => hget ⟨r, k, h⟩
    by_cases hf : x.sr.fatal = 1
    · exact .inr (.inl ⟨hf, transact_of_halted w hf hnot⟩)
    · cases h : decodeCommand tw c with
      | error e =>
        exact .inr (.inr (.inl ⟨hf, _, (transact_of_error x w h).trans (illegalCommand_of_running hf)⟩))
      | ok i =>
        rw [transact_of_ok x w h]
        obtain hfault | ⟨y, hy, heq⟩ := commandReply_of_running w hf fun r k hi => hnot r k (hi ▸ h)
        · exact .inr (.inr (.inl ⟨hf, hfault⟩))
        · exact .inr (.inr (.inr ⟨hf, i, y, rfl, hy, heq⟩))

/- The data word and the response (20_memory.md R30). -/

/-- Of a decoded command only `PUT` reads the data word. -/
theorem commandReply_ignores_wdata {i : Instr} (w w' : Word32) (x : Regs tw) (hput : ∀ r k, i ≠ .put r k) :
    commandReply i w x = commandReply i w' x := by
  cases i with
  | put r k => exact absurd rfl (hput r k)
  | get | dec | enc | wrkt | wrkc | divt => rfl

/-- A decoded `PUT` has the opcode of `PUT` (30_encoding.md R42). -/
theorem opField_of_decoded_put {c : Word32} {r : Reg} {k : Byte} (h : decodeCommand tw c = .ok (.put r k)) :
    opField c = 0x02#8 := by
  rw [← encode_of_decodeCommand h]
  exact opField_encode _

/-- A legal word with the opcode of `PUT` is a `PUT`. -/
theorem decoded_put_of_opField {c : Word32} {i : Instr} (h : decodeCommand tw c = .ok i) (hop : opField c = 0x02#8) :
    ∃ r k, i = .put r k := by
  rw [← encode_of_decodeCommand h, opField_encode] at hop
  cases i with
  | put r k => exact ⟨r, k, rfl⟩
  | get | dec | enc | wrkt | wrkc | divt => cases hop

theorem transact_ignores_wdata {c : Word32} (w w' : Word32) (x : Regs tw) (hop : opField c ≠ 0x02#8) :
    transact c w x = transact c w' x := by
  cases h : decodeCommand tw c with
  | error e => rw [transact_of_error x w h, transact_of_error x w' h]
  | ok i =>
    rw [transact_of_ok x w h, transact_of_ok x w' h]
    exact commandReply_ignores_wdata w w' x fun r k hi => hop (opField_of_decoded_put (hi ▸ h))

theorem transact_rdata_of_not_get {c : Word32} (w : Word32) (x : Regs tw)
    (hget : ∀ r k, decodeCommand tw c ≠ .ok (.get r k)) : (transact c w x).rdata = 0 := by
  obtain ⟨r, k, h, -⟩ | ⟨-, heq⟩ | ⟨-, e, heq⟩ | ⟨-, i, y, -, -, heq⟩ := transact_cases c w x
  · exact absurd h (hget r k)
  · rw [heq, refuse_rdata]
  · rw [heq, raiseFatal_rdata]
  · rw [heq, respond_rdata]

/-- Settles O17: the reply of every command but `PUT` is the same for all data words, and of the four ways to end only the
served `GET` has a response of its own. -/
theorem onlyPutReadsTheDataWord : Obligations.OnlyPutReadsTheDataWord :=
  fun _ _ w w' x => ⟨transact_ignores_wdata w w' x, transact_rdata_of_not_get w x⟩

/- Which registers a transaction changes; `PUT` writes no read-only one (42_register_access.md R79). -/

@[simp] theorem regWrite_wk (r : Reg) (k : Byte) (v : Word32) (x : Regs tw) : (regWrite r k v x).wk = x.wk := by
  cases r <;> rfl

@[simp] theorem regWrite_tt (r : Reg) (k : Byte) (v : Word32) (x : Regs tw) : (regWrite r k v x).tt = x.tt := by
  cases r <;> rfl

/-- The registers that a command which completes changes, as the table of 10_state.md R10 says, by the command word. -/
theorem completes_frame {w : Word32} {x y : Regs tw} {i : Instr} (h : Completes w x i y) :
    (y.cb ≠ x.cb → opField (encode i) = 0x02#8 ∨ encode i = 0x11000000#32)
      ∧ (y.ts ≠ x.ts ∨ y.tm ≠ x.tm →
          opField (encode i) = 0x02#8 ∨ encode i = 0x10000000#32 ∨ encode i = 0x21000000#32)
      ∧ (y.wk ≠ x.wk → encode i = 0x20000000#32 ∨ encode i = 0x21000000#32)
      ∧ (y.hr ≠ x.hr → opField (encode i) = 0x02#8)
      ∧ (y.tt ≠ x.tt → encode i = 0x22000000#32)
      ∧ y.sr = x.sr := by
  cases h with
  | put =>
    have hop := opField_wordM .put
    exact ⟨fun _ => .inl (hop _ _), fun _ => .inl (hop _ _), fun h => absurd (regWrite_wk ..) h, fun _ => hop _ _,
      fun h => absurd (regWrite_tt ..) h, regWrite_sr ..⟩
  | dec => exact ⟨by simp, fun _ => .inr (.inl rfl), by simp, by simp, by simp, rfl⟩
  | enc => exact ⟨fun _ => .inr rfl, by simp, by simp, by simp, by simp, rfl⟩
  | wrkt => exact ⟨by simp, by simp, fun _ => .inl rfl, by simp, by simp, rfl⟩
  | wrkc => exact ⟨by simp, fun _ => .inr (.inr rfl), fun _ => .inr rfl, by simp, by simp, rfl⟩
  | divt => exact ⟨by simp, by simp, by simp, by simp, fun _ => rfl, rfl⟩

/-- Settles O43: a served `GET` and a refused word change nothing, a fault changes `SR` alone, and the frame of each command
that completes is read off the command. -/
theorem whoMayChangeARegister : Obligations.WhoMayChangeARegister := by
  intro tw c w x
  obtain ⟨r, k, -, heq⟩ | ⟨-, heq⟩ | ⟨hf, e, heq⟩ | ⟨-, i, y, hi, hy, heq⟩ := transact_cases c w x
  · simp [heq]
  · simp [heq]
  · simpa [heq] using fun _ => hf
  · obtain ⟨hcb, htarget, hwk, hhr, htt, hsr⟩ := completes_frame hy
    rw [encode_of_decodeCommand hi] at hcb htarget hwk hhr htt
    rw [heq]
    exact ⟨hcb, htarget, hwk, hhr, htt, fun h => absurd hsr h⟩

/- Faults (60_exceptions.md R82 to R86). -/

/-- The causes have the codes 1 to 4 (60_exceptions.md R82). -/
theorem code_range (e : Cause) : 1 ≤ e.code.toNat ∧ e.code.toNat ≤ 4 := by
  cases e <;> decide

/-- Settles O39: a transaction that leaves `SR` as it is does not halt the block, and the only other thing it can do to `SR`
is the fault entry. -/
theorem faultsArePrecise : Obligations.FaultsArePrecise := by
  intro tw c w x hf hhalt
  obtain hsr | ⟨-, e, heq⟩ := transact_keepsStatusOrFaults c w x
  · rw [hsr] at hhalt
    exact absurd hhalt hf
  · obtain ⟨hlo, hhi⟩ := code_range e
    exact ⟨e.code, hlo, hhi, heq⟩

theorem divtReply_of_zero {x : Regs tw} (hf : x.sr.fatal ≠ 1) (hr : x.hr = 0) :
    divtReply x = raiseFatal .divZero x := by
  obtain ⟨hhalt, -⟩ | ⟨-, -, heq⟩ | ⟨-, hne, -⟩ := divtReply_cases x
  · exact absurd hhalt hf
  · exact heq
  · exact absurd hr hne

/-- Settles O33: `DIVT` looks at `HR` before it divides. -/
theorem divtByZeroFaults : Obligations.DivtByZeroFaults := by
  intro s hf hr
  rw [exec_eq_finish]
  exact congrArg (finish s) (divtReply_of_zero hf hr)

/-- Settles O18: such a term is the illegal command, running or halted. -/
theorem invalidAddressIsIllegal : Obligations.InvalidAddressIsIllegal := by
  intro s r k i _ hwf
  rw [exec_eq_finish, commandReply_of_not_wf s.wdata s.regs hwf]
  exact ⟨fun hf => congrArg (finish s) (illegalCommand_of_running hf),
    fun hhalt => congrArg (finish s) (illegalCommand_of_halted hhalt)⟩

/-- Settles O41: every command but `GET` asks first whether the block is halted. -/
theorem haltedCommandsAreRefused : Obligations.HaltedCommandsAreRefused := by
  intro s i hhalt hget
  rw [exec_eq_finish, commandReply_of_halted s.wdata hhalt hget]
  rfl

/-- At 256 bits every magnitude encodes: 32 bytes need an exponent of at most 33 (40_codec.md R55). -/
theorem encodeCompact_some_256 (s : BitVec 1) (t : BitVec Config.TW) : ∃ c, encodeCompact s t.toNat = some c := by
  cases hc : encodeCompact s t.toNat with
  | some c => exact ⟨c, rfl⟩
  | none =>
    have hbytes : t.toNat < 256 ^ 32 := t.isLt.trans_eq (by norm_num)
    have hbig := (encodeCompact_eq_none_iff _ _).mp hc
    have hsmall := packedExponent_le_of_lt hbytes
    omega

/-- The legal commands that fault at 256 bits are the two that decode and `DIVT`; every other transaction of a legal word
leaves `SR` as it was. -/
theorem transact_sr_of_no_fault {c : Word32} (w : Word32) {x : Regs Config.TW} (hf : x.sr.fatal ≠ 1)
    (hlegal : ¬IllegalWord Config.TW c)
    (hdec : ¬((c = 0x10000000#32 ∨ c = 0x21000000#32) ∧ 2 ^ 256 ≤ compactMag x.cb))
    (hdiv : ¬(c = 0x22000000#32 ∧ x.hr = 0)) : (transact c w x).regs.sr = x.sr := by
  obtain ⟨i, hi⟩ := not_not.mp (mt (not_decodes_iff Config.TW c).mp hlegal)
  have hwf : i.WF Config.TW := wf_of_decodeCommand hi
  obtain rfl := encode_of_decodeCommand hi
  cases i with
  | get r k => rw [transact_of_get w x hi, respond_regs]
  | put r k =>
    obtain ⟨hhalt, -⟩ | ⟨-, -, -, heq⟩ | ⟨-, hbad, -⟩ := putReply_cases x r k w
    · exact absurd hhalt hf
    · rw [transact_of_ok x w hi]
      exact (congrArg (fun a => a.regs.sr) heq).trans (regWrite_sr r k w x)
    · exact absurd hwf hbad
  | dec =>
    have hfits : compactMag x.cb < 2 ^ Config.TW := Nat.not_le.mp fun hov => hdec ⟨.inl rfl, hov⟩
    exact congrArg (fun a => a.regs.sr) (transact_dec_of_fits w hf hfits)
  | enc =>
    obtain ⟨c, hc⟩ := encodeCompact_some_256 x.ts x.tm
    exact congrArg (fun a => a.regs.sr) (transact_enc_of_some w hf hc)
  | wrkt => exact congrArg (fun a => a.regs.sr) (wrktReply_of_running hf)
  | wrkc =>
    have hfits : compactMag x.cb < 2 ^ Config.TW := Nat.not_le.mp fun hov => hdec ⟨.inr rfl, hov⟩
    exact congrArg (fun a => a.regs.sr) (transact_wrkc_of_fits w hf hfits)
  | divt => exact congrArg (fun a => a.regs.sr) (divtReply_of_running hf fun hr => hdiv ⟨rfl, hr⟩)

theorem raiseFatal_statusWord (e : Cause) (x : Regs tw) :
    (raiseFatal e x).regs.sr.word = SR.word { fatal := 1, cause := e.code } :=
  rfl

/-- Settles O38: the three faults that 256 bits leave, each with the word of its cause, and no change of `SR` otherwise. -/
theorem whatHaltsTheBlock : Obligations.WhatHaltsTheBlock := by
  intro c w x hf hcause
  refine ⟨fun hill => ?illegal, fun hc hov => ?overflow, fun hc hr => ?divZero, fun hlegal hdec hdiv => ?nothing⟩
  case illegal =>
    rw [transact_of_illegalWord hill, illegalCommand_of_running hf, raiseFatal_statusWord]
    decide
  case overflow =>
    have heq : transact c w x = raiseFatal .decOverflow x := by
      obtain rfl | rfl := hc
      · exact (transact_dec_of_running w hf).trans (if_pos hov)
      · exact (transact_wrkc_of_running w hf).trans (if_pos hov)
    rw [heq, raiseFatal_statusWord]
    decide
  case divZero =>
    rw [hc, transact_divt, divtReply_of_zero hf hr, raiseFatal_statusWord]
    decide
  case nothing =>
    have hsr : x.sr = { fatal := 0, cause := 0 } := by
      rw [← fatal_eq_zero hf, ← hcause]
    rw [transact_sr_of_no_fault w hf hlegal hdec hdiv, hsr]
    decide

/-- Settles O12: the five implemented bits have 32 values, and the reserved bits add nothing. -/
theorem statusWordLayout : Obligations.StatusWordLayout := by
  have hall : ∀ (f : BitVec 1) (c : BitVec 4), (SR.word ⟨f, c⟩).toNat = f.toNat + 16 * c.toNat := by decide
  exact fun x => hall x.fatal x.cause

/- The invariant of the registers (10_state.md R15, R17, R18). -/

theorem isWork_zero : IsWork 0 :=
  ⟨0, 0, (workOfTarget_zero 0).symm⟩

theorem isTime_zero : IsTime 0 :=
  ⟨0, 1, isWork_zero, Nat.le_refl 1, rfl⟩

theorem regsInv_reset : RegsInv (Regs.reset tw) :=
  ⟨.inl reset_statusWord, isWork_zero, isTime_zero⟩

/-- Settles O45: the status word, the work and the time are 0 at reset. -/
theorem registersInvariantAtReset : Obligations.RegistersInvariantAtReset :=
  regsInv_reset

/-- Every fault leaves one of the four status words of a halted block (60_exceptions.md R82). -/
theorem statusLegal_raiseFatal (e : Cause) (x : Regs tw) : StatusLegal (raiseFatal e x).regs.sr := by
  change StatusLegal { fatal := 1, cause := e.code }
  cases e <;> decide

theorem isWork_writeWork (x : Regs tw) : IsWork (writeWork x).wk.toNat :=
  ⟨x.ts, x.tm.toNat, writeWork_wk_toNat x⟩

theorem toNat_ne_zero_of_ne {n : Nat} {t : BitVec n} (h : t ≠ 0) : t.toNat ≠ 0 :=
  fun h0 => h (BitVec.eq_of_toNat_eq h0)

theorem isTime_divTime {wk : BitVec Config.WW} {hr : BitVec Config.HW} (hwk : IsWork wk.toNat) (hr0 : hr ≠ 0) :
    IsTime (BitVec.ofNat Config.QW (divTime wk.toNat hr.toNat)).toNat := by
  have hpos : 1 ≤ hr.toNat := Nat.pos_of_ne_zero (toNat_ne_zero_of_ne hr0)
  exact ⟨wk.toNat, hr.toNat, hwk, hpos, divTime_fits wk hr.toNat⟩

/-- `WK` is written by a work, `TT` by a quotient of `WK`, and neither by anything else. -/
theorem completes_keeps_regsInv {w : Word32} {x y : Regs tw} {i : Instr} (h : Completes w x i y) (hx : RegsInv x) :
    RegsInv y := by
  obtain ⟨hsr, hwk, htt⟩ := hx
  cases h with
  | put =>
    unfold RegsInv
    rw [regWrite_sr, regWrite_wk, regWrite_tt]
    exact ⟨hsr, hwk, htt⟩
  | dec | enc => exact ⟨hsr, hwk, htt⟩
  | wrkt | wrkc => exact ⟨hsr, isWork_writeWork _, htt⟩
  | divt hr => exact ⟨hsr, hwk, isTime_divTime hwk hr⟩

theorem transact_keeps_regsInv (c w : Word32) (x : Regs tw) (hx : RegsInv x) : RegsInv (transact c w x).regs := by
  obtain ⟨r, k, -, heq⟩ | ⟨-, heq⟩ | ⟨-, e, heq⟩ | ⟨-, i, y, -, hy, heq⟩ := transact_cases c w x <;> rw [heq]
  · exact hx
  · exact hx
  · obtain ⟨-, hwk, htt⟩ := hx
    exact ⟨statusLegal_raiseFatal e x, hwk, htt⟩
  · exact completes_keeps_regsInv hy hx

theorem isWork_le {w : Nat} (h : IsWork w) : w ≤ 2 ^ 255 := by
  obtain ⟨s, mag, rfl⟩ := h
  exact workOfTarget_le s mag

theorem isTime_le {q : Nat} (h : IsTime q) : q ≤ 2 ^ 255 := by
  obtain ⟨w, r, hw, -, rfl⟩ := h
  exact (Nat.div_le_self w r).trans (isWork_le hw)

/-- Settles O46: reset has the invariant, a transaction keeps it in each of its four ways to end, and a quotient of a work
is no larger than the work. -/
theorem everyStepKeepsTheRegistersInvariant : Obligations.EveryStepKeepsTheRegistersInvariant :=
  ⟨fun _ _ => step_preserves_regs regsInv_reset transact_keeps_regsInv,
    fun _ ⟨_, hwk, htt⟩ => ⟨isWork_le hwk, isTime_le htt⟩⟩

end Sys2Proof.Proofs

/-! PROOFS of the family other, register access: what `GET` reads and `PUT` writes, limb by limb (42_register_access.md),
and the pseudo-instructions `GETW` and `PUTW` made of them (30_encoding.md R50). -/

namespace Sys2Proof.Proofs

open Sys2Proof.Machine Sys2Proof.Laws

variable {tw : Nat}

/- One limb. -/

/-- Settles O11: `GET` of a valid address never asks whether the block is halted, and a limb is a digit of the value. -/
theorem getRespondsTheLimb : Obligations.GetRespondsTheLimb := by
  intro s r k hvalid
  rw [exec_eq_finish, ← regRead_eq_ofNat]
  exact congrArg (finish s) (getReply_of_valid hvalid s.regs)

theorem putReply_of_running {r : Reg} {k : Byte} {x : Regs tw} (w : Word32) (hf : x.sr.fatal ≠ 1)
    (hvalid : ValidAddress tw r k) (hw : r.hostWritable = true) :
    putReply r k w x = respond 0 (regWrite r k w x) := by
  obtain ⟨hhalt, -⟩ | ⟨-, -, -, heq⟩ | ⟨-, hbad, -⟩ := putReply_cases x r k w
  · exact absurd hhalt hf
  · exact heq
  · exact absurd ⟨hvalid, hw⟩ hbad

theorem exec_put_of_running {s : State} {r : Reg} {k : Byte} (hf : s.regs.sr.fatal ≠ 1)
    (hvalid : ValidAddress Config.TW r k) (hw : r.hostWritable = true) :
    exec (.put r k) s = .next { s with regs := regWrite r k s.wdata s.regs, rsp := some 0 } := by
  rw [exec_eq_finish]
  exact congrArg (finish s) (putReply_of_running s.wdata hf hvalid hw)

/-- What each limb reads after one is replaced (00_scope.md R7). -/
theorem limb_setLimb {n : Nat} (t : BitVec n) {k : Nat} (j : Nat) (v : Word32) (h : 32 * k + 32 ≤ n) :
    limb (setLimb t k v) j = if j = k then v else limb t j := by
  split
  next hj =>
    subst hj
    exact limb_setLimb_same t j v h
  next hj => exact limb_setLimb_of_ne t v hj

/-- The same, for the limbs as digits of the value. -/
theorem setLimb_digit {n : Nat} (t : BitVec n) {k : Nat} (j : Nat) (v : Word32) (h : 32 * k + 32 ≤ n) :
    (setLimb t k v).toNat / 2 ^ (32 * j) % 2 ^ 32
      = if j = k then v.toNat else t.toNat / 2 ^ (32 * j) % 2 ^ 32 := by
  rw [← limb_toNat, limb_setLimb t j v h, apply_ite BitVec.toNat, limb_toNat]

/-- Bit 0 of a word, as the number the rule speaks of and as the model takes it. -/
theorem extractLsb'_zero_one (w : Word32) : w.extractLsb' 0 1 = BitVec.ofNat 1 w.toNat := by
  simp [BitVec.toNat_eq]

theorem regWrite_cb (v : Word32) (x : Regs tw) : regWrite .cb 0 v x = { x with cb := v } := by
  simp [regWrite]

theorem regWrite_ts (k : Byte) (v : Word32) (x : Regs tw) :
    regWrite .ts k v x = { x with ts := BitVec.ofNat 1 v.toNat } := by
  rw [← extractLsb'_zero_one, regWrite]

/-- Settles O14: `PUT` is `regWrite`, which takes the whole of `CB`, one bit of `TS` and a limb of `TM` and `HR`. -/
theorem putWritesTheLimb : Obligations.PutWritesTheLimb := by
  intro s hf
  refine ⟨?cb, ?ts, fun k hk => ⟨⟨setLimb s.regs.tm k.toNat s.wdata, ?tm, ?tmLimbs⟩,
    ⟨setLimb s.regs.hr k.toNat s.wdata, ?hr, ?hrLimbs⟩⟩⟩
  case cb =>
    rw [exec_put_of_running hf (by decide) rfl, regWrite_cb]
  case ts =>
    rw [exec_put_of_running hf (by decide) rfl, regWrite_ts]
  case tm => exact exec_put_of_running hf hk rfl
  case hr => exact exec_put_of_running hf hk rfl
  case tmLimbs => exact fun j _ => setLimb_digit s.regs.tm j s.wdata (show 32 * k.toNat + 32 ≤ 256 by omega)
  case hrLimbs => exact fun j _ => setLimb_digit s.regs.hr j s.wdata (show 32 * k.toNat + 32 ≤ 256 by omega)

/-- A second equal write changes nothing (20_memory.md R28). -/
theorem regWrite_regWrite (r : Reg) (k : Byte) (v : Word32) (x : Regs tw) :
    regWrite r k v (regWrite r k v x) = regWrite r k v x := by
  cases r with
  | cb | tm | hr => simp only [regWrite, setLimb_setLimb]
  | ts | wk | tt | sr => rfl

/-- Settles O15: a refused `PUT` is refused again, one that faulted is then refused, one that wrote writes the same. -/
theorem putIsIdempotent : Obligations.PutIsIdempotent := by
  intro tw c w x hop
  by_cases hhalt : (transact c w x).regs.sr.fatal = 1
  case pos => exact transact_regs_of_halted hhalt c w
  case neg =>
    cases hc : decodeCommand tw c with
    | error e =>
      rw [transact_of_error x w hc] at hhalt
      obtain ⟨hx, heq⟩ | ⟨-, heq⟩ := illegalCommand_cases x
      · rw [heq] at hhalt
        exact absurd hx hhalt
      · rw [heq] at hhalt
        exact absurd rfl hhalt
    | ok i =>
      obtain ⟨r, k, rfl⟩ := decoded_put_of_opField hc hop
      obtain ⟨hvalid, hw⟩ : (Instr.put r k).WF tw := wf_of_decodeCommand hc
      have hf : x.sr.fatal ≠ 1 := fun hx => hhalt ((transact_regs_of_halted hx c w).symm ▸ hx)
      have hput : ∀ y : Regs tw, y.sr.fatal ≠ 1 → (transact c w y).regs = regWrite r k w y := fun y hy =>
        congrArg Reply.regs ((transact_of_ok y w hc).trans (putReply_of_running w hy hvalid hw))
      rw [hput _ hhalt, hput x hf, regWrite_regWrite]

/-- A limb of a valid address lies in its register (20_memory.md R24). -/
theorem limb_fits_tm (hw : Config.LegalWidth tw) {k : Byte} (h : ValidAddress tw .tm k) : 32 * k.toNat + 32 ≤ tw := by
  obtain ⟨hdvd, -, -⟩ := hw
  have hlimbs : k.toNat < tw / 32 := h
  omega

theorem limb_bit_zero (w : Word32) : limb (w.extractLsb' 0 1) 0 = w &&& 1 := by
  apply BitVec.eq_of_toNat_eq
  rw [limb_toNat, extractLsb'_zero_one]
  simp
  omega

/-- What a limb reads after it was written; of `TS` one bit is storage (42_register_access.md R77, R78). -/
theorem regRead_regWrite_same (hw : Config.LegalWidth tw) {r : Reg} {k : Byte} (hwr : r.hostWritable = true)
    (hvalid : ValidAddress tw r k) (w : Word32) (x : Regs tw) :
    regRead r k (regWrite r k w x) = if r = .ts then w &&& 1 else w := by
  have hlt : k.toNat < r.limbs tw := hvalid
  cases r with
  | cb =>
    have hk : k.toNat = 0 := Nat.lt_one_iff.mp hlt
    exact limb_setLimb_same x.cb k.toNat w (by omega)
  | ts =>
    have hk : k.toNat = 0 := Nat.lt_one_iff.mp hlt
    change limb (w.extractLsb' 0 1) k.toNat = w &&& 1
    rw [hk, limb_bit_zero]
  | tm => exact limb_setLimb_same x.tm k.toNat w (limb_fits_tm hw hvalid)
  | hr =>
    have hk : k.toNat < 8 := hlt
    exact limb_setLimb_same x.hr k.toNat w (show 32 * k.toNat + 32 ≤ 256 by omega)
  | wk | tt | sr => cases hwr

/-- A write to one register leaves the others as they are (42_register_access.md R78). -/
theorem regRead_regWrite_of_reg_ne {r q : Reg} (h : q ≠ r) (k j : Byte) (w : Word32) (x : Regs tw) :
    regRead q j (regWrite r k w x) = regRead q j x := by
  cases r with
  | cb =>
    cases q with
    | cb => exact absurd rfl h
    | ts | tm | wk | hr | tt | sr => rfl
  | ts =>
    cases q with
    | ts => exact absurd rfl h
    | cb | tm | wk | hr | tt | sr => rfl
  | tm =>
    cases q with
    | tm => exact absurd rfl h
    | cb | ts | wk | hr | tt | sr => rfl
  | hr =>
    cases q with
    | hr => exact absurd rfl h
    | cb | ts | tm | wk | tt | sr => rfl
  | wk | tt | sr => rfl

/-- A write to one limb leaves the other limbs of the register as they are; a one-limb register has no other. -/
theorem regRead_regWrite_of_limb_ne {r : Reg} {k j : Byte} (hk : ValidAddress tw r k) (hj : ValidAddress tw r j)
    (h : j ≠ k) (w : Word32) (x : Regs tw) : regRead r j (regWrite r k w x) = regRead r j x := by
  have hne : j.toNat ≠ k.toNat := fun heq => h (BitVec.eq_of_toNat_eq heq)
  cases r with
  | cb => exact limb_setLimb_of_ne x.cb w hne
  | ts => exact absurd ((Nat.lt_one_iff.mp hj).trans (Nat.lt_one_iff.mp hk).symm) hne
  | tm => exact limb_setLimb_of_ne x.tm w hne
  | hr => exact limb_setLimb_of_ne x.hr w hne
  | wk | tt | sr => rfl

/-- Settles O16: a `PUT` then a `GET` are a write then a read of the registers, at the same address or at another. -/
theorem getAfterPut : Obligations.GetAfterPut := by
  intro tw r q k j w x hwidth hf hwr hk hj
  have hput : commandReply (.put r k) w x = respond 0 (regWrite r k w x) := putReply_of_running w hf hk hwr
  have hget : ∀ y : Regs tw, (commandReply (.get q j) 0 y).rdata = regRead q j y := fun y =>
    congrArg Reply.rdata (getReply_of_valid hj y)
  rw [hput, respond_regs, hget, hget]
  split
  next hsame =>
    obtain ⟨rfl, rfl⟩ := hsame
    exact regRead_regWrite_same hwidth hwr hk w x
  next hother =>
    by_cases hq : q = r
    case pos =>
      subst hq
      exact regRead_regWrite_of_limb_ne hk hj (fun h => hother ⟨rfl, h⟩) w x
    case neg => exact regRead_regWrite_of_reg_ne hq k j w x

/- `GETW`: all the limbs of a register (30_encoding.md R50). -/

theorem transact_encode_get {r : Reg} {k : Byte} (h : ValidAddress tw r k) (w : Word32) (x : Regs tw) :
    transact (encode (.get r k)) w x = respond (regRead r k x) x :=
  (transact_of_ok x w (decodeCommand_encode h)).trans (getReply_of_valid h x)

/-- A list of `GET`s changes nothing and answers the limbs in its order. -/
theorem runRequests_gets (r : Reg) (x : Regs tw) {ks : List Byte} (h : ∀ k ∈ ks, ValidAddress tw r k) :
    runRequests (ks.map fun k => plainRequest (.get r k)) x = (x, ks.map fun k => regRead r k x) := by
  induction ks with
  | nil => rfl
  | cons k ks ih =>
    obtain ⟨hk, hks⟩ := List.forall_mem_cons.mp h
    simp only [List.map_cons, runRequests, plainRequest] at ih ⊢
    rw [transact_encode_get hk, respond_regs, ih hks, respond_rdata]

/-- Reading words as the digits of a number, lowest first, is the sum of the words at their places. -/
theorem foldr_words (f : Nat → Word32) (n acc : Nat) :
    ((List.range n).map f).foldr (fun v a => v.toNat + 2 ^ 32 * a) acc
      = ((List.range n).map fun k => (f k).toNat * 2 ^ (32 * k)).sum + 2 ^ (32 * n) * acc := by
  induction n generalizing acc with
  | zero => simp
  | succ n ih =>
    simp only [List.range_succ, List.map_append, List.map_singleton, List.foldr_append, List.foldr_cons,
      List.foldr_nil, List.sum_append, List.sum_singleton, ih]
    ring

/-- Settles O50: the responses are the limbs, and their sum at their places is the value. -/
theorem getwReadsTheWholeRegister : Obligations.GetwReadsTheWholeRegister := by
  intro tw r x hw
  have hrun := runRequests_gets r x fun k => (mem_limbIndices_iff hw).mp
  refine ⟨_, rfl, ?_⟩
  rw [hrun, limbIndices, List.map_map]
  refine ⟨rfl, ?count, ?value⟩
  case count => rw [List.length_map, List.length_range]
  case value =>
    rw [foldr_words, Nat.mul_zero, Nat.add_zero]
    exact sum_limbs r x hw

/- `PUTW`: all the limbs of a register written (30_encoding.md R50). -/

/-- The limbs `ks` of a register replaced by those of `imm`, one after the other. -/
def putLimbs {n : Nat} (imm : Nat) (ks : List Byte) (t : BitVec n) : BitVec n :=
  ks.foldl (fun t k => setLimb t k.toNat (limbOf imm k.toNat)) t

/-- The requests that `PUTW` stands for: a `PUT` of each limb. -/
def putRequests (r : Reg) (imm : Nat) (ks : List Byte) : List Request :=
  ks.map fun k => { cmd := encode (.put r k), wdata := limbOf imm k.toNat }

theorem transact_encode_put {r : Reg} {k : Byte} {x : Regs tw} (w : Word32) (hf : x.sr.fatal ≠ 1)
    (hvalid : ValidAddress tw r k) (hw : r.hostWritable = true) :
    transact (encode (.put r k)) w x = respond 0 (regWrite r k w x) :=
  (transact_of_ok x w (decodeCommand_encode (i := .put r k) ⟨hvalid, hw⟩)).trans (putReply_of_running w hf hvalid hw)

/-- A list of `PUT`s is a list of register writes. -/
theorem runRequests_puts {r : Reg} (hw : r.hostWritable = true) (imm : Nat) {ks : List Byte}
    (h : ∀ k ∈ ks, ValidAddress tw r k) {x : Regs tw} (hf : x.sr.fatal ≠ 1) :
    (runRequests (putRequests r imm ks) x).1
      = ks.foldl (fun y k => regWrite r k (limbOf imm k.toNat) y) x := by
  induction ks generalizing x with
  | nil => rfl
  | cons k ks ih =>
    obtain ⟨hk, hks⟩ := List.forall_mem_cons.mp h
    have hf' : (regWrite r k (limbOf imm k.toNat) x).sr.fatal ≠ 1 := by rwa [regWrite_sr]
    exact (congrArg (fun a => (runRequests (putRequests r imm ks) a.regs).1)
      (transact_encode_put (limbOf imm k.toNat) hf hk hw)).trans (ih hks hf')

/-- Writes of limbs of one register are writes in that register: `f t` is the registers with `t` in it. -/
theorem foldl_regWrite {n : Nat} (r : Reg) (imm : Nat) (f : BitVec n → Regs tw)
    (hf : ∀ t k v, regWrite r k v (f t) = f (setLimb t k.toNat v)) (ks : List Byte) (t : BitVec n) :
    ks.foldl (fun y k => regWrite r k (limbOf imm k.toNat) y) (f t) = f (putLimbs imm ks t) := by
  induction ks generalizing t with
  | nil => rfl
  | cons k ks ih =>
    rw [List.foldl_cons, hf, ih]
    rfl

/-- The limbs that were written read `imm`, the others read as before. -/
theorem limb_putLimbs {n : Nat} (imm j : Nat) {ks : List Byte} (h : ∀ k ∈ ks, 32 * k.toNat + 32 ≤ n) (t : BitVec n) :
    limb (putLimbs imm ks t) j = if j ∈ ks.map BitVec.toNat then limbOf imm j else limb t j := by
  induction ks generalizing t with
  | nil => rfl
  | cons k ks ih =>
    obtain ⟨hk, hks⟩ := List.forall_mem_cons.mp h
    have hcons : limb (putLimbs imm (k :: ks) t) j = limb (putLimbs imm ks (setLimb t k.toNat (limbOf imm k.toNat))) j :=
      rfl
    rw [hcons, ih hks, limb_setLimb t j _ hk, List.map_cons]
    by_cases hj : j = k.toNat
    · simp [hj]
    · simp [hj]

theorem limb_ofNat {n : Nat} (imm : Nat) {j : Nat} (h : 32 * j + 32 ≤ n) :
    limb (BitVec.ofNat n imm) j = limbOf imm j := by
  apply BitVec.eq_of_getLsbD_eq
  intro i hi
  have hbit : i + 32 * j < n := by omega
  rw [getLsbD_limb, BitVec.getLsbD_ofNat, limbOf, BitVec.getLsbD_ofNat, Nat.testBit_div_two_pow]
  simp [hi, hbit, Nat.add_comm]

/-- When all the limbs are written the register holds `imm`. -/
theorem putLimbs_limbIndices (hw : Config.LegalWidth tw) {r : Reg} {n : Nat} (hn : 32 * r.limbs tw = n) (imm : Nat)
    (t : BitVec n) : putLimbs imm (limbIndices tw r) t = BitVec.ofNat n imm := by
  have hfits : ∀ k ∈ limbIndices tw r, 32 * k.toNat + 32 ≤ n := fun k hk => by
    have hvalid : k.toNat < r.limbs tw := (mem_limbIndices_iff hw).mp hk
    omega
  refine eq_of_limbs fun j hj => ?_
  have hlimb : j < r.limbs tw := by omega
  have hbyte := limbIndex_toNat hw hlimb
  have hmem : j ∈ (limbIndices tw r).map BitVec.toNat :=
    List.mem_map.mpr ⟨BitVec.ofNat 8 j, (mem_limbIndices_iff hw).mpr (hbyte.trans_lt hlimb), hbyte⟩
  rw [limb_putLimbs imm j hfits, if_pos hmem, limb_ofNat imm (by omega)]

theorem assembleLine_putw {r : Reg} {imm : Nat} (hw : r.hostWritable = true) (h : imm < 2 ^ (32 * r.limbs tw)) :
    assembleLine tw (.putw r imm) = some (putRequests r imm (limbIndices tw r)) :=
  if_pos ⟨hw, h⟩

/-- `PUTW` of a register whose storage is its limbs puts the whole value in it. -/
theorem putw_writes (hwidth : Config.LegalWidth tw) {r : Reg} (hw : r.hostWritable = true) {imm n : Nat}
    (hn : 32 * r.limbs tw = n) (himm : imm < 2 ^ n) {x : Regs tw} (hrun : x.sr.fatal ≠ 1) (f : BitVec n → Regs tw)
    (hf : ∀ t k v, regWrite r k v (f t) = f (setLimb t k.toNat v)) {t : BitVec n} (hx : f t = x) :
    ∃ qs, assembleLine tw (.putw r imm) = some qs ∧ (runRequests qs x).1 = f (BitVec.ofNat n imm) := by
  refine ⟨_, assembleLine_putw hw (hn ▸ himm), ?_⟩
  rw [runRequests_puts hw imm (fun k => (mem_limbIndices_iff hwidth).mp) hrun, ← hx, foldl_regWrite r imm f hf,
    putLimbs_limbIndices hwidth hn]

/-- `PUTW` of `TS` is its one `PUT`, which writes one bit. -/
theorem putw_ts_writes (hwidth : Config.LegalWidth tw) {imm : Nat} (himm : imm < 2 ^ 32) {x : Regs tw}
    (hrun : x.sr.fatal ≠ 1) :
    ∃ qs, assembleLine tw (.putw .ts imm) = some qs ∧ (runRequests qs x).1 = { x with ts := BitVec.ofNat 1 imm } := by
  refine ⟨_, assembleLine_putw rfl himm, ?_⟩
  rw [runRequests_puts rfl imm (fun k => (mem_limbIndices_iff hwidth).mp) hrun]
  have hbit : (limbOf imm 0).extractLsb' 0 1 = BitVec.ofNat 1 imm := by
    simp [limbOf, BitVec.toNat_eq]
  rw [← hbit]
  rfl

/-- Settles O49: `CB`, `TM` and `HR` are their limbs, of which `PUTW` writes each one; `TS` is one bit. -/
theorem putwWritesTheWholeRegister : Obligations.PutwWritesTheWholeRegister := by
  intro tw imm x hwidth hrun
  have htm : 32 * Reg.tm.limbs tw = tw := Nat.mul_div_cancel' hwidth.1
  exact ⟨fun himm => ⟨putw_writes hwidth (r := .cb) rfl rfl himm hrun (fun t => { x with cb := t }) (fun _ _ _ => rfl) rfl,
      putw_ts_writes hwidth himm hrun⟩,
    fun himm => putw_writes hwidth (r := .tm) rfl htm himm hrun (fun t => { x with tm := t }) (fun _ _ _ => rfl) rfl,
    fun himm => putw_writes hwidth (r := .hr) rfl rfl himm hrun (fun t => { x with hr := t }) (fun _ _ _ => rfl) rfl⟩

end Sys2Proof.Proofs

/-! PROOFS of the family other, the compute commands on the machine: what `DEC`, `ENC`, `WRKT` and `WRKC` write, in the
arithmetic of the rules, and how the decoded magnitude grows (40_codec.md, 41_work.md). -/

namespace Sys2Proof.Proofs

open Sys2Proof.Machine Sys2Proof.Laws

variable {tw : Nat}

/- The decoding commands (40_codec.md R51, R56; 41_work.md R69). -/

theorem signField_eq_ofNat (c : Word32) : signField c = BitVec.ofNat 1 (field c 23 23) := by
  rw [field_sign, BitVec.ofNat_toNat, BitVec.setWidth_eq]

/-- The target registers that a decode leaves, in the arithmetic of R51. -/
theorem writeTarget_decodeCompact (c : Word32) (x : Regs tw) :
    writeTarget (decodeCompact c) x
      = { x with
          tm := BitVec.ofNat tw (compactMag c)
          ts := if compactMag c = 0 then 0 else BitVec.ofNat 1 (field c 23 23) } := by
  rw [← decodedMag_eq_compactMag, ← signField_eq_ofNat]
  rfl

/-- Settles O19: `DEC` completes with the target registers that R51 gives. -/
theorem decWritesTheTarget : Obligations.DecWritesTheTarget := by
  intro s hf hfits
  have hdec : decReply s.regs = respond 0 (writeTarget (decodeCompact s.regs.cb) s.regs) :=
    transact_dec_of_fits s.wdata hf hfits
  rw [exec_eq_finish, ← writeTarget_decodeCompact]
  exact congrArg (finish s) hdec

/- The work in `WK` (41_work.md R65, R66, R73). -/

/-- The inequalities of a work whose sign is known to be 0 from the sign register. -/
theorem workOfTarget_bounds {s : BitVec 1} {mag : Nat} (hs : s = 0) (hmag : mag ≠ 0) :
    workOfTarget s mag * (mag + 1) ≤ 2 ^ 256 ∧ 2 ^ 256 < (workOfTarget s mag + 1) * (mag + 1) := by
  subst hs
  exact (workOfTarget_eq_iff (Nat.one_le_iff_ne_zero.mpr hmag)).mp rfl

/-- Settles O30: `WK` takes the work of the target registers, which it is wide enough to hold. -/
theorem wrktWritesTheWork : Obligations.WrktWritesTheWork := by
  intro s hf
  have hwk := writeWork_wk_toNat s.regs
  refine ⟨(writeWork s.regs).wk, ?run, fun hzero => ?zero, fun hts htm => ?quotient⟩
  case run =>
    rw [exec_eq_finish]
    exact congrArg (finish s) (wrktReply_of_running hf)
  case zero =>
    refine BitVec.eq_of_toNat_eq (hwk.trans (workOfTarget_eq_zero ?_))
    exact hzero.imp_right fun htm => congrArg BitVec.toNat htm
  case quotient =>
    rw [hwk]
    exact workOfTarget_bounds hts (toNat_ne_zero_of_ne htm)

/-- `WK` after the target of a word that fits was written. -/
theorem writeWork_writeTarget_wk (x : Regs tw) {c : Word32} (h : compactMag c < 2 ^ tw) :
    (writeWork (writeTarget (decodeCompact c) x)).wk.toNat = workOfTarget (signField c) (compactMag c) := by
  rw [writeWork_wk_toNat, workOfTarget_writeTarget x h, decodeCompact_sign, decodeCompact_mag,
    decodedMag_eq_compactMag]

/-- Settles O31: `WRKC` writes the target as `DEC` does and the work of the decoded target. -/
theorem wrkcWritesTargetAndWork : Obligations.WrkcWritesTargetAndWork := by
  intro s hf hfits
  have hwk := writeWork_writeTarget_wk s.regs hfits
  refine ⟨(writeWork (writeTarget (decodeCompact s.regs.cb) s.regs)).wk, ?run, fun hzero => ?zero,
    fun hsign hmag => ?quotient⟩
  case run =>
    have hwrkc : wrkcReply s.regs = respond 0 (writeWork (writeTarget (decodeCompact s.regs.cb) s.regs)) :=
      transact_wrkc_of_fits s.wdata hf hfits
    rw [exec_eq_finish, writeTarget_decodeCompact]
    rw [writeTarget_decodeCompact] at hwrkc
    exact congrArg (finish s) hwrkc
  case zero =>
    refine BitVec.eq_of_toNat_eq (hwk.trans (workOfTarget_eq_zero ?_))
    exact hzero.imp_left fun hsign => by rw [signField_eq_ofNat, hsign]; rfl
  case quotient =>
    rw [hwk]
    exact workOfTarget_bounds (by rw [signField_eq_ofNat, hsign]; rfl) hmag

/- `ENC` (40_codec.md R54, R55, R57). -/

/-- The fields that `encode` writes, from the byte length and the top three bytes, without and with the fix-up. -/
theorem fields_of_encodeCompact_cases {s : BitVec 1} {x : Nat} {c : Word32} (hx : x ≠ 0)
    (h : encodeCompact s x = some c) :
    (topThreeBytes x < 2 ^ 23 → field c 31 24 = byteLength x ∧ field c 22 0 = topThreeBytes x)
      ∧ (2 ^ 23 ≤ topThreeBytes x → field c 31 24 = byteLength x + 1 ∧ field c 22 0 = topThreeBytes x / 256) := by
  obtain ⟨hexp, -, hman⟩ := fields_of_encodeCompact hx h
  rw [field_exponent, field_mantissa, hexp, hman, packedExponent, packedMantissa]
  constructor
  · intro htop
    have hfix : ¬needsFixUp x = true := fun hf => Nat.not_le.mpr htop ((needsFixUp_iff hx).mp hf)
    exact ⟨if_neg hfix, if_neg hfix⟩
  · intro htop
    have hfix : needsFixUp x = true := (needsFixUp_iff hx).mpr htop
    exact ⟨if_pos hfix, (if_pos hfix).trans (Nat.shiftRight_eq_div_pow _ 8)⟩

/-- Settles O22: 256 bits always encode, and the byte length and the top three bytes are those of R54. -/
theorem encWritesTheCompactWord : Obligations.EncWritesTheCompactWord := by
  intro s hf
  obtain ⟨c, hc⟩ := encodeCompact_some_256 s.regs.ts s.regs.tm
  refine ⟨c, ?run, fun htm => ?zero, fun htm => ?fields⟩
  case run =>
    have henc : encReply s.regs = respond 0 { s.regs with cb := c } := transact_enc_of_some s.wdata hf hc
    rw [exec_eq_finish]
    exact congrArg (finish s) henc
  case zero =>
    rw [htm] at hc
    exact eq_zero_of_encodeCompact_zero hc
  case fields =>
    have hx := toNat_ne_zero_of_ne htm
    obtain ⟨-, hsign, -⟩ := fields_of_encodeCompact hx hc
    obtain ⟨hplain, hfix⟩ := fields_of_encodeCompact_cases hx hc
    exact ⟨byteLength s.regs.tm.toNat, topThreeBytes s.regs.tm.toNat, byteLength_pos hx, pow_pred_byteLength_le hx,
      lt_pow_byteLength _, topThreeBytes_eq _, by rw [field_sign, hsign], hplain, hfix⟩

/- Monotony (40_codec.md R64). -/

/-- A larger mantissa or exponent, before the three bytes are dropped, is no smaller after. -/
theorem decodedMag_mono {c d : Word32} (he : field c 31 24 ≤ field d 31 24) (hm : field c 22 0 ≤ field d 22 0) :
    decodedMag c ≤ decodedMag d := by
  rw [decodedMag_eq_compactMag, decodedMag_eq_compactMag, compactMag_eq_fields, compactMag_eq_fields]
  exact Nat.div_le_div_right (Nat.mul_le_mul hm (Nat.pow_le_pow_right (by norm_num) he))

/-- Each step of the exponent multiplies by 256, before the three bytes are dropped, so it multiplies what is left by at
least 256. -/
theorem mul_decodedMag_le {c d : Word32} (he : field c 31 24 < field d 31 24) (hm : field c 22 0 = field d 22 0) :
    256 * decodedMag c ≤ decodedMag d := by
  rw [decodedMag_eq_compactMag, decodedMag_eq_compactMag, compactMag_eq_fields, compactMag_eq_fields, hm]
  calc 256 * (field d 22 0 * 256 ^ field c 31 24 / 256 ^ 3)
      ≤ 256 * (field d 22 0 * 256 ^ field c 31 24) / 256 ^ 3 := Nat.mul_div_le_mul_div_assoc _ _ _
    _ = field d 22 0 * 256 ^ (field c 31 24 + 1) / 256 ^ 3 := by rw [pow_succ]; congr 1; ring
    _ ≤ field d 22 0 * 256 ^ field d 31 24 / 256 ^ 3 :=
        Nat.div_le_div_right (Nat.mul_le_mul_left _ (Nat.pow_le_pow_right (by norm_num) he))

/-- Settles O29: a larger field gives no smaller magnitude, and a magnitude that is not 0 grows at least 256 times. -/
theorem decodeIsMonotone : Obligations.DecodeIsMonotone := by
  refine fun c d => ⟨fun he hm => decodedMag_mono he.le hm, fun he hm => ⟨decodedMag_mono he.le hm.le, fun hne => ?_⟩⟩
  have hgrow := mul_decodedMag_le he hm
  rw [decodeCompact_mag] at hne ⊢
  rw [decodeCompact_mag]
  omega

end Sys2Proof.Proofs

/-! PROOFS of the family other, the machine: a step by the input it takes, a run of commands as the steps that take them
(70_reset_and_hazards.md R99), and the handshake at the pins (20_memory.md R32, R33). -/

namespace Sys2Proof.Proofs

open Sys2Proof.Machine Sys2Proof.Laws

variable {tw : Nat}

/- One step by the host's oldest input. -/

theorem step_of_empty {s : State} (h : s.inbox = []) : step s = .next (idle s) := by
  simp only [step, h]

theorem step_of_reset {s : State} {rest : List PortEvent} (h : s.inbox = .reset :: rest) :
    step s = .next (takeReset rest) := by
  simp only [step, h]

theorem step_of_command {s : State} {c w : Word32} {rest : List PortEvent} (h : s.inbox = .command c w :: rest) :
    step s = finish (accept w rest s) (transact c w s.regs) := by
  simp only [step, h, runWord_eq_finish, accept_wdata, accept_regs]

/-- Settles O6: the transaction of a word that decodes is the reply of its command, and so is `exec`. -/
theorem stepRunsTheDecodedCommand : Obligations.StepRunsTheDecodedCommand := by
  intro s c w rest i hin hdec
  refine ⟨wf_of_decodeCommand hdec, ?_⟩
  rw [step_of_command hin, transact_of_ok s.regs w hdec]
  exact (exec_eq_finish i (accept w rest s)).symm

/-- Settles O7: a step that takes a command settles its transaction. -/
theorem stepIsTheTransaction : Obligations.StepIsTheTransaction :=
  fun _ _ _ _ hin => step_of_command hin

/-- Settles O8: the two steps that take no command. -/
theorem stepOnResetAndWhenIdle : Obligations.StepOnResetAndWhenIdle :=
  fun _ _ => ⟨step_of_reset, step_of_empty⟩

/-- Settles O9: every step has a next state, and one that takes a command responds. -/
theorem everyStepGivesANextState : Obligations.EveryStepGivesANextState := by
  intro s
  obtain ⟨t, ht⟩ := step_isNext s
  refine ⟨t, ht, fun c w rest hin => ?_⟩
  rw [step_of_command hin] at ht
  cases ht
  exact ⟨_, rfl⟩

/-- Settles O42: of the three things a step can do, idling and a command keep the registers of a halted machine. -/
theorem onlyResetLeavesTheHalt : Obligations.OnlyResetLeavesTheHalt := by
  intro s t hhalt h
  obtain ⟨hin, rfl⟩ | ⟨rest, hin, rfl⟩ | ⟨c, w, rest, hin, rfl⟩ := step_cases h
  · exact .inl ⟨rfl, by simp [hin]⟩
  · exact .inr ⟨rfl, rest, hin⟩
  · exact .inl ⟨transact_regs_of_halted hhalt c w, by simp [hin]⟩

/- Runs of commands (70_reset_and_hazards.md R99). -/

theorem runRequests_cons (q : Request) (qs : List Request) (x : Regs tw) :
    runRequests (q :: qs) x
      = ((runRequests qs (transact q.cmd q.wdata x).regs).1,
          (transact q.cmd q.wdata x).rdata :: (runRequests qs (transact q.cmd q.wdata x).regs).2) :=
  rfl

theorem runRequests_append (a b : List Request) (x : Regs tw) :
    runRequests (a ++ b) x
      = ((runRequests b (runRequests a x).1).1, (runRequests a x).2 ++ (runRequests b (runRequests a x).1).2) := by
  induction a generalizing x with
  | nil => rfl
  | cons q a ih => rw [List.cons_append, runRequests_cons, ih, runRequests_cons, List.cons_append]

theorem runRequests_length (qs : List Request) (x : Regs tw) : (runRequests qs x).2.length = qs.length := by
  induction qs generalizing x with
  | nil => rfl
  | cons q qs ih => rw [runRequests_cons, List.length_cons, ih, List.length_cons]

/-- Settles O47: both parts by induction on the first list. -/
theorem runsCompose : Obligations.RunsCompose :=
  fun _ a b x => ⟨runRequests_append a b x, runRequests_length a x⟩

/-- The host's inputs that offer these requests one after the other. -/
def offers (qs : List Request) : List PortEvent := qs.map fun q => .command q.cmd q.wdata

/-- The state after the first of the offered commands. -/
def afterFirst (q : Request) (later : List PortEvent) (s : State) : State :=
  settle (accept q.wdata later s) (transact q.cmd q.wdata s.regs)

theorem step_of_offers {s : State} {q : Request} {qs : List Request} {rest : List PortEvent}
    (h : s.inbox = offers (q :: qs) ++ rest) : step s = .next (afterFirst q (offers qs ++ rest) s) :=
  step_of_command h

/-- As many steps as there are offered commands make the run of the list. -/
theorem run_offers {s : State} {qs : List Request} {rest : List PortEvent} (h : s.inbox = offers qs ++ rest) :
    ∃ t, Host.Core.run Sys2Proof.core qs.length s = .next t ∧ t.regs = (runRequests qs s.regs).1 ∧ t.inbox = rest := by
  induction qs generalizing s with
  | nil => exact ⟨s, rfl, rfl, h⟩
  | cons q qs ih =>
    rw [List.length_cons, run_succ (step_of_offers h)]
    exact ih (s := afterFirst q (offers qs ++ rest) s) rfl

/-- The step that takes an offered command gives the response of the run in its place. -/
theorem run_offers_response {s : State} {qs : List Request} {rest : List PortEvent} (h : s.inbox = offers qs ++ rest)
    {k : Nat} (hk : k < qs.length) :
    ∃ u, Host.Core.run Sys2Proof.core (k + 1) s = .next u ∧ u.rsp = (runRequests qs s.regs).2[k]? := by
  induction qs generalizing s k with
  | nil => cases hk
  | cons q qs ih =>
    rw [run_succ (step_of_offers h), runRequests_cons]
    cases k with
    | zero => exact ⟨_, rfl, rfl⟩
    | succ k =>
      rw [List.getElem?_cons_succ]
      exact ih (s := afterFirst q (offers qs ++ rest) s) rfl (Nat.lt_of_succ_lt_succ hk)

/-- Settles O48: each step takes the oldest command, so the rest of the run starts from the state it leaves. -/
theorem stepsAreTheRun : Obligations.StepsAreTheRun :=
  fun _ qs _ h => ⟨run_offers h, runRequests_length qs _, fun _ => run_offers_response h⟩

/- The handshake at the pins (20_memory.md R32, R33). -/

theorem clockEdge_of_reset {p : Pins} (h : p.rst = true) (g : Signals tw) :
    clockEdge p g = { regs := Regs.reset tw, phase := .inReset } :=
  if_pos h

/-- The equations of a clock edge that samples `rst` low, one for each phase. -/
theorem clockEdge_inReset {p : Pins} (h : p.rst = false) (x : Regs tw) :
    clockEdge p { regs := x, phase := .inReset } = { regs := x, phase := .ready } := by
  simp [clockEdge, h]

theorem clockEdge_ready_of_offer {p : Pins} {g : Signals tw} (h : p.rst = false) (hg : g.phase = .ready)
    (hv : p.cmdValid = true) :
    clockEdge p g = { regs := g.regs, phase := .busy p.cmd p.wdata (cyclesLeft p.cmd p.wdata g.regs) } := by
  simp [clockEdge, h, hg, hv]

theorem clockEdge_busy_succ {p : Pins} (h : p.rst = false) (x : Regs tw) (c w : Word32) (n : Nat) :
    clockEdge p { regs := x, phase := .busy c w (n + 1) } = { regs := x, phase := .busy c w n } := by
  simp [clockEdge, h]

theorem clockEdge_busy_zero {p : Pins} (h : p.rst = false) (x : Regs tw) (c w : Word32) :
    clockEdge p { regs := x, phase := .busy c w 0 }
      = { regs := (transact c w x).regs, phase := .responding (transact c w x).rdata } := by
  simp [clockEdge, h]

theorem clockEdge_responding {p : Pins} (h : p.rst = false) (x : Regs tw) (v : Word32) :
    clockEdge p { regs := x, phase := .responding v } = { regs := x, phase := .ready } := by
  simp [clockEdge, h]

/-- While a command is in the block each edge takes one from the number of edges left and leaves the registers. -/
theorem clockEdges_busy {ps : List Pins} (h : ∀ p ∈ ps, p.rst = false) (x : Regs tw) (c w : Word32) {n : Nat}
    (hn : ps.length ≤ n) :
    clockEdges ps { regs := x, phase := .busy c w n } = { regs := x, phase := .busy c w (n - ps.length) } := by
  induction ps generalizing n with
  | nil => rfl
  | cons p ps ih =>
    obtain ⟨hp, hps⟩ := List.forall_mem_cons.mp h
    cases n with
    | zero => cases hn
    | succ n =>
      rw [clockEdges, clockEdge_busy_succ hp, ih hps (Nat.le_of_succ_le_succ hn), List.length_cons,
        Nat.add_sub_add_right]

/-- The edge after the last of them is the transaction and begins the response cycle. -/
theorem clockEdges_completes {ps : List Pins} (h : ∀ p ∈ ps, p.rst = false) (x : Regs tw) (c w : Word32) {n : Nat}
    (hn : ps.length = n + 1) :
    clockEdges ps { regs := x, phase := .busy c w n }
      = { regs := (transact c w x).regs, phase := .responding (transact c w x).rdata } := by
  induction n generalizing ps with
  | zero =>
    obtain ⟨p, rfl⟩ := List.length_eq_one_iff.mp hn
    exact clockEdge_busy_zero (h p (List.mem_singleton_self p)) x c w
  | succ n ih =>
    obtain ⟨p, ps, rfl⟩ := List.exists_cons_of_length_eq_add_one hn
    obtain ⟨hp, hps⟩ := List.forall_mem_cons.mp h
    rw [clockEdges, clockEdge_busy_succ hp]
    exact ih hps (Nat.succ.inj hn)

/-- Settles O52: the block counts down, completes, responds for one cycle and is ready again. -/
theorem acceptedCommandsRespondOnce : Obligations.AcceptedCommandsRespondOnce := by
  intro tw g p q ps hready hp hvalid hq hps
  rw [clockEdge_ready_of_offer hp hready hvalid]
  refine ⟨fun hbefore => ?busy, fun hlast => ?completes⟩
  case busy =>
    rw [clockEdges_busy hps _ _ _ hbefore]
    exact ⟨rfl, rfl, rfl⟩
  case completes =>
    rw [clockEdges_completes hps _ _ _ hlast, clockEdge_responding hq]
    exact ⟨rfl, rfl, rfl, rfl, rfl, rfl⟩

/-- Settles O53: the edge that samples reset looks at nothing else, and the next one makes the block ready. -/
theorem resetPinWins : Obligations.ResetPinWins := by
  intro tw g p q hp hq
  rw [clockEdge_of_reset hp, clockEdge_inReset hq]
  exact ⟨rfl, rfl, rfl, rfl, rfl, rfl, rfl⟩

end Sys2Proof.Proofs
